-- ==== Sys2Proof/Word.lean ====
section
/-! DEFINITION. The fixed-width values of the engine: spec/00_scope.md R8, R9, R11. -/

namespace Sys2Proof

/-- An 8-bit byte, R8. -/
abbrev Byte := BitVec 8

/-- A 16-bit code unit of a text, R9 and 20_memory.md R52. -/
abbrev CodeUnit := BitVec 16

/-- A 32-bit word: hash words, control registers, command words, R8 and R9. All arithmetic on words
wraps modulo 2^32 (R12), which is what `+` on `BitVec 32` does. -/
abbrev Word := BitVec 32

end Sys2Proof
end

