-- ==== Sys2Proof/Syntax.lean ====
section
/-! DEFINITION. The commands of the engine (spec/30_encoding.md R75 to R82, one constructor of `Instr`
per row of spec/opcode_table.json), the fields of a command word, and the host's accesses
(spec/46_host_access.md R300). -/

namespace Sys2Proof

/-- The two operand types, 20_memory.md R51: a byte sequence (type bit 0) or a text (type bit 1). -/
inductive OperandType where
  | bytes
  | text
  deriving DecidableEq, Repr

/-- The seven operations. `tm` is the type of the operand in SRC, `tk` that of the operand in KEY, for
the operations that leave the bit free (30_encoding.md R77); the other operands have a fixed type. -/
inductive Instr where
  | utf8enc
  | md5 (tm : OperandType)
  | sha1 (tm : OperandType)
  | hmacsha1 (tm tk : OperandType)
  | tohex
  | fromhex
  | tobase64
  deriving DecidableEq, Repr

/-- The fields of a 32-bit command word, 30_encoding.md R75: any value of each, legal or not. -/
structure CmdFields where
  op : BitVec 8
  tm : Bool
  tk : Bool
  reserved : BitVec 22
  deriving DecidableEq, Repr

/-- A row of spec/opcode_table.json: a word `w` selects the row when `w AND mask = pattern`, R81. -/
structure OpcodeRow where
  mnemonic : String
  mask : Word
  pattern : Word
  deriving DecidableEq, Repr

/-- The three operand buffers, 20_memory.md R50. -/
inductive Space where
  | src
  | key
  | dst
  deriving DecidableEq, Repr

/-- The five control registers, 10_state.md R22. -/
inductive Reg where
  | cmd
  | status
  | srcLen
  | keyLen
  | dstLen
  deriving DecidableEq, Repr

/-- The register's number, 10_state.md R22. -/
def Reg.number : Reg → Nat
  | .cmd => 0
  | .status => 1
  | .srcLen => 2
  | .keyLen => 3
  | .dstLen => 4

/-- The register's byte offset from the base of the register block, 10_state.md R22. -/
def Reg.offset (r : Reg) : Nat := 4 * r.number

/-- The host's accesses, with exactly the constructors of 46_host_access.md R300. That an address lies
inside its buffer is checked by `HostAction.wellFormed`. -/
inductive HostAction where
  | readReg (r : Reg)
  | writeReg (r : Reg) (v : Word)
  | readBuf (space : Space) (addr : Nat)
  | writeBuf (space : Space) (addr : Nat) (v : Byte)
  deriving DecidableEq, Repr

/-- Who moves next (10_state.md R20; 70_reset_and_hazards.md R250): a host access, the engine, or the
external reset event. DESIGN CHOICE, log 1. -/
inductive Turn where
  | host (action : HostAction)
  | engine
  | reset
  deriving DecidableEq, Repr

end Sys2Proof
end

