-- ==== Sys2Proof/Config.lean ====
section
/-! DEFINITION. What an implementation fixes (the open parameters of spec/00_scope.md R10 and
spec/20_memory.md R61) and the free values (spec/93_implementation_defined.md U1 to U3), which have no
body so that no proof can lean on one. -/

namespace Sys2Proof

/-- The open parameters, "which the model takes as arguments" (00_scope.md R10). They are fixed for an
instance: no step changes them. No rule depends on the four base addresses. -/
structure Config where
  srcCap : Nat
  keyCap : Nat
  dstCap : Nat
  regBase : Nat
  srcBase : Nat
  keyBase : Nat
  dstBase : Nat
  deriving DecidableEq, Repr

/-- The capacity in bytes of a buffer, 00_scope.md R10. -/
def Config.cap (c : Config) : Space → Nat
  | .src => c.srcCap
  | .key => c.keyCap
  | .dst => c.dstCap

/-- Each capacity is "a natural number below 2^32", 00_scope.md R10. -/
abbrev Config.legal (c : Config) : Prop :=
  c.srcCap < 2 ^ 32 ∧ c.keyCap < 2 ^ 32 ∧ c.dstCap < 2 ^ 32

/-- The parameters `State.reset` starts from. The spec gives none: DESIGN CHOICE, the largest capacities
R10 admits (log 3) and bases 0 (log 4). -/
def Config.atReset : Config where
  srcCap := 2 ^ 32 - 1
  keyCap := 2 ^ 32 - 1
  dstCap := 2 ^ 32 - 1
  regBase := 0
  srcBase := 0
  keyBase := 0
  dstBase := 0

/-- FREE VALUE. What a host read of DST_LEN returns while a command is pending: "a draw, any value",
46_host_access.md R308 (log 9). How the draws of two instances relate is open: DESIGN CHOICE, equal counters give equal values
(log 20). -/
opaque Config.busyReadWord : Nat → Word

/-- FREE VALUE. What a host read of a buffer byte returns while a command is pending, R308 (log 9). How the draws of two instances relate is open:
DESIGN CHOICE, equal counters give equal values (log 20). -/
opaque Config.busyReadByte : Nat → Byte

/-- FREE VALUE. What a host read returns of a byte that nothing has written since the reset numbered
`resets`, 46_host_access.md R305 (log 8). How the unwritten bytes of two instances relate is open: DESIGN CHOICE, equal
counters give equal values (log 20). -/
opaque Config.unwrittenByte (resets : Nat) (space : Space) (addr : Nat) : Byte

/-- FREE VALUE. A 32-bit register of the internal working state that is unspecified (log 6). -/
opaque Config.freeWord (draw index : Nat) : Word

/-- FREE VALUE. A byte of the internal working state that is unspecified (log 6). -/
opaque Config.freeByte (draw index : Nat) : Byte

/-- FREE VALUE. The message byte counter N when it is unspecified (log 6). -/
opaque Config.freeCount (draw : Nat) : BitVec 64

/-- FREE VALUE. A block or round index when it is unspecified (log 6). -/
opaque Config.freeIndex (draw index : Nat) : Nat

end Sys2Proof
end

