-- ==== Sys2Proof/WellFormed.lean ====
section
/-! DEFINITION. The checks on a command word's fields (spec/30_encoding.md R75 to R79) and on a host
access (spec/46_host_access.md R300). Every `Instr` is well formed by its type: the syntax has no room
for a type bit the table of R77 forbids, so the checks stand on the raw fields. -/

namespace Sys2Proof

/-- Bits 31:10 "reserved, must be zero", R75. -/
def CmdFields.reservedZero (f : CmdFields) : Bool := f.reserved == 0

/-- `OP` is one of 0x01 to 0x07, R76. -/
def CmdFields.opAssigned (f : CmdFields) : Bool := decide (1 ≤ f.op.toNat ∧ f.op.toNat ≤ 7)

/-- `TM` may be set only for MD5, SHA1 and HMACSHA1, R77. -/
def CmdFields.tmAllowed (f : CmdFields) : Bool :=
  !f.tm || f.op == 0x02 || f.op == 0x03 || f.op == 0x04

/-- `TK` may be set only for HMACSHA1, R77. -/
def CmdFields.tkAllowed (f : CmdFields) : Bool := !f.tk || f.op == 0x04

/-- The fields of a legal command word, R75 to R79. -/
def CmdFields.wellFormed (f : CmdFields) : Bool :=
  f.reservedZero && f.opAssigned && f.tmAllowed && f.tkAllowed

/-- A host access names an address inside its buffer, R300: `0 <= addr < CAP(space)`. -/
def HostAction.wellFormed (c : Config) : HostAction → Bool
  | .readReg _ => true
  | .writeReg _ _ => true
  | .readBuf space addr => decide (addr < c.cap space)
  | .writeBuf space addr _ => decide (addr < c.cap space)

/-- A host that names only addresses that exist, 46_host_access.md R300. -/
def Turn.wellFormed (c : Config) : Turn → Bool
  | .host a => a.wellFormed c
  | .engine => true
  | .reset => true

end Sys2Proof
end

