-- ==== Sys2Proof/Decode.lean ====
section
/-! DEFINITION. Decoding a command word (spec/46_host_access.md R310, spec/30_encoding.md R75 to R79),
total on all 2^32 words and rejecting by name; the encoder from the same tables; and the opcode table of
spec/opcode_table.json (R81). -/

namespace Sys2Proof

/-- The type bit of an operand, R77: 0 bytes, 1 text. -/
def OperandType.bit : OperandType → Bool
  | .bytes => false
  | .text => true

/-- The operand type a type bit selects, R77. -/
def OperandType.ofBit (b : Bool) : OperandType := if b then .text else .bytes

/-- Why a word is no command, R79. -/
inductive DecodeError where
  /-- a bit of 31:10 is set -/
  | reservedBitSet
  /-- `OP` = 0x00 -/
  | opZero
  /-- `OP` = 0x08, kept for a Base64 decoder -/
  | opBase64Decoder
  /-- `OP` = 0x09 to 0xFF -/
  | opUnassigned
  /-- a type bit is set on an operation whose operand type is fixed -/
  | typeBitSet
  deriving DecidableEq, Repr

/-- The fields of a command word, R75. -/
def fieldsOf (w : Word) : CmdFields where
  op := w.extractLsb' 0 8
  tm := w.getLsbD 8
  tk := w.getLsbD 9
  reserved := w.extractLsb' 10 22

/-- The command word with these fields, R75. -/
def wordOf (f : CmdFields) : Word :=
  f.reserved ++ (BitVec.ofBool f.tk ++ (BitVec.ofBool f.tm ++ f.op))

/-- `i` where no type bit may be set, R77. -/
def fixedTypes (f : CmdFields) (i : Instr) : Except DecodeError Instr :=
  if f.tm || f.tk then .error .typeBitSet else .ok i

/-- Where `TM` is free and `TK` must be zero, R77. -/
def freeTm (f : CmdFields) (mk : OperandType → Instr) : Except DecodeError Instr :=
  if f.tk then .error .typeBitSet else .ok (mk (.ofBit f.tm))

/-- The decoder of R310, on the fields of R75. -/
def decodeFields (f : CmdFields) : Except DecodeError Instr :=
  if f.reserved ≠ 0 then .error .reservedBitSet
  else if f.op = 0x00 then .error .opZero
  else if f.op = 0x01 then fixedTypes f .utf8enc
  else if f.op = 0x02 then freeTm f .md5
  else if f.op = 0x03 then freeTm f .sha1
  else if f.op = 0x04 then .ok (.hmacsha1 (.ofBit f.tm) (.ofBit f.tk))
  else if f.op = 0x05 then fixedTypes f .tohex
  else if f.op = 0x06 then fixedTypes f .fromhex
  else if f.op = 0x07 then fixedTypes f .tobase64
  else if f.op = 0x08 then .error .opBase64Decoder
  else .error .opUnassigned

/-- The command a 32-bit word stands for, or why it stands for none, R75 to R79. -/
def decode (w : Word) : Except DecodeError Instr := decodeFields (fieldsOf w)

/-- The instruction the decoder reads from the word whose bits are `w`, numbered as
spec/opcode_table.json numbers them: bit 0 is the least significant bit of the 32-bit command word. Every
command is one 32-bit word (R75), held in the register CMD, so there is no byte order to apply
(20_memory.md R56). Bits at `nbits` and above are 0. -/
def decodeTableWord (nbits w : Nat) : Option Instr :=
  if w % 2 ^ nbits < 2 ^ 32 then (decode (BitVec.ofNat 32 (w % 2 ^ nbits))).toOption else none

/-- The operation code, R76. -/
def Instr.opcode : Instr → BitVec 8
  | .utf8enc => 0x01
  | .md5 _ => 0x02
  | .sha1 _ => 0x03
  | .hmacsha1 _ _ => 0x04
  | .tohex => 0x05
  | .fromhex => 0x06
  | .tobase64 => 0x07

/-- The value of the type bit TM, R77: zero where the operand type is fixed. -/
def Instr.tmBit : Instr → Bool
  | .utf8enc => false
  | .md5 tm => tm.bit
  | .sha1 tm => tm.bit
  | .hmacsha1 tm _ => tm.bit
  | .tohex => false
  | .fromhex => false
  | .tobase64 => false

/-- The value of the type bit TK, R77. -/
def Instr.tkBit : Instr → Bool
  | .utf8enc => false
  | .md5 _ => false
  | .sha1 _ => false
  | .hmacsha1 _ tk => tk.bit
  | .tohex => false
  | .fromhex => false
  | .tobase64 => false

/-- The fields of an instruction's command word, R75. -/
def Instr.fields (i : Instr) : CmdFields where
  op := i.opcode
  tm := i.tmBit
  tk := i.tkBit
  reserved := 0

/-- An instruction is well formed when the fields of its word are (always, by its type). -/
def Instr.wellFormed (i : Instr) : Bool := i.fields.wellFormed

/-- The command word of an instruction, R75 to R78. -/
def encode (i : Instr) : Word := wordOf i.fields

/-- The row's mnemonic in spec/opcode_table.json, R76. -/
def Instr.mnemonic : Instr → String
  | .utf8enc => "UTF8ENC"
  | .md5 _ => "MD5"
  | .sha1 _ => "SHA1"
  | .hmacsha1 _ _ => "HMACSHA1"
  | .tohex => "TOHEX"
  | .fromhex => "FROMHEX"
  | .tobase64 => "TOBASE64"

/-- The letter of an operand type in a mnemonic's suffix, R82. -/
def OperandType.letter : OperandType → String
  | .bytes => "B"
  | .text => "T"

/-- The mnemonic with its type suffix as host programs write it, R82: message type first, key type
second. -/
def Instr.spelling : Instr → String
  | .utf8enc => "UTF8ENC"
  | .md5 tm => "MD5." ++ tm.letter
  | .sha1 tm => "SHA1." ++ tm.letter
  | .hmacsha1 tm tk => "HMACSHA1." ++ tm.letter ++ tk.letter
  | .tohex => "TOHEX"
  | .fromhex => "FROMHEX"
  | .tobase64 => "TOBASE64"

/-- The rows of spec/opcode_table.json, R81. -/
def opcodeTable : List OpcodeRow := [
  { mnemonic := "UTF8ENC", mask := 0xFFFFFFFF, pattern := 0x00000001 },
  { mnemonic := "MD5", mask := 0xFFFFFEFF, pattern := 0x00000002 },
  { mnemonic := "SHA1", mask := 0xFFFFFEFF, pattern := 0x00000003 },
  { mnemonic := "HMACSHA1", mask := 0xFFFFFCFF, pattern := 0x00000004 },
  { mnemonic := "TOHEX", mask := 0xFFFFFFFF, pattern := 0x00000005 },
  { mnemonic := "FROMHEX", mask := 0xFFFFFFFF, pattern := 0x00000006 },
  { mnemonic := "TOBASE64", mask := 0xFFFFFFFF, pattern := 0x00000007 }]

/-- A word selects a row when `w AND mask = match`, R81. -/
def OpcodeRow.selects (row : OpcodeRow) (w : Word) : Bool := w &&& row.mask == row.pattern

/-- The twelve legal command words, R78. -/
def legalWords : List Word := [
  0x00000001, 0x00000002, 0x00000102, 0x00000003, 0x00000103, 0x00000004,
  0x00000104, 0x00000204, 0x00000304, 0x00000005, 0x00000006, 0x00000007]

end Sys2Proof
end

