-- ==== Sys2Proof/Machine/State.lean ====
section
/-! DEFINITION. The state of one instance of the engine (spec/10_state.md R21, spec/20_memory.md R50), the
reasons a step can stop, and the state after reset (spec/10_state.md R40). -/

namespace Sys2Proof.Machine

/-- Why a step stops with a fault. -/
inductive Fault where
  /-- Raised by a host turn whose buffer access names an address outside the buffer: "no address outside
  a buffer" exists, 46_host_access.md R300. Safe: the spec's host has no such access (log 11). -/
  | addressOutsideBuffer (space : Space) (addr : Nat)
  deriving DecidableEq, Repr

/-- Why a step is refused. -/
inductive Refusal where
  /-- Reserved for an instruction without a meaning. No arm of `exec` raises it. Safe. -/
  | notModelled (mnemonic : String)
  /-- Raised by a command that reads an operand byte nothing has written since reset: "a byte that holds
  no value: a command that reads one is refused", 10_state.md R40. Safe (log 7). -/
  | unwrittenOperandByte (space : Space) (addr : Nat)
  deriving DecidableEq, Repr

/-- The errors a command can end with, 60_exceptions.md R220. `lengthOverflow` is "defined and never
raised" (R222). -/
inductive CmdError where
  | encoding
  | lengthOverflow
  | illegalCmd
  | operandRange
  deriving DecidableEq, Repr

/-- Why the evaluation of a command ends without a result: it raises an error of R220, or it meets an
operand byte that holds no value (R40). -/
inductive Halt where
  | raise (e : CmdError)
  | unwritten (space : Space) (addr : Nat)
  deriving DecidableEq, Repr

/-- The result of a command, 46_host_access.md R310: bytes or a text. -/
inductive Result where
  | bytes (b : List Byte)
  | text (t : List CodeUnit)
  deriving DecidableEq, Repr

/-- A buffer: its written bytes as (address, byte) pairs with strictly rising addresses. An address that
is not listed holds no value (10_state.md R40; log 7). -/
abbrev Memory := List Host.Cell

/-- The canonical form: addresses strictly rise. (No entry can equal what an unlisted address reads as,
since that is no value.) -/
abbrev Memory.wf (m : Memory) : Prop := m.Pairwise fun p q => p.1 < q.1

/-- Four MD5 registers: a chaining value H[0..3] or the working registers a, b, c, d, 10_state.md R29. -/
structure Md5Regs where
  a : Word
  b : Word
  c : Word
  d : Word
  deriving DecidableEq, Repr

/-- Five SHA-1 registers: a chaining value H[0..4] or the working registers a to e, 10_state.md R30. -/
structure Sha1Regs where
  a : Word
  b : Word
  c : Word
  d : Word
  e : Word
  deriving DecidableEq, Repr

/-- The sequencer's phase, 10_state.md R33. -/
inductive Phase where
  | idle
  | fetching
  | padding
  | compressing
  | storing
  deriving DecidableEq, Repr

/-- The stage of HMACSHA1, 10_state.md R33. -/
inductive HmacStage where
  | keyHash
  | innerHash
  | outerHash
  deriving DecidableEq, Repr

/-- The internal working state, 10_state.md R29 to R34. No host access reaches it and no result depends on
what it held before a command (R38). The MD5 unit uses the first four registers of `h` and `r` and the
first sixteen words of `w`: the storage R30 lets the two units share. -/
structure Work where
  /-- H[0..4], the chaining value -/
  h : Sha1Regs
  /-- a, b, c, d, e, the working registers -/
  r : Sha1Regs
  /-- W[0..79], the message schedule -/
  w : Vector Word 80
  /-- BLK[0..63], the block buffer -/
  blk : Vector Byte 64
  /-- N, the message byte counter -/
  n : BitVec 64
  /-- the block index -/
  j : Nat
  /-- the round index -/
  i : Nat
  phase : Phase
  stage : Option HmacStage
  /-- K0[0..63], the normalised HMAC key -/
  k0 : Vector Byte 64
  /-- INNER[0..19], the HMAC inner digest -/
  inner : Vector Byte 20
  deriving DecidableEq, Repr

/-- What a host read returned (log 10). -/
inductive Reply where
  | reg (r : Reg) (v : Word)
  | buf (space : Space) (addr : Nat) (v : Byte)
  deriving DecidableEq, Repr

/-- The state of one instance, 10_state.md R21, with the open parameters (`cfg`, R10, never changed) and
the model's own fields `turns`, `replies`, `draws`, `resets` (log 1, 8, 10, 16). -/
structure State where
  /-- the open parameters of 00_scope.md R10 -/
  cfg : Config
  /-- CMD, R23 -/
  cmd : Word
  /-- STATUS, R24 -/
  status : Word
  /-- SRC_LEN, R25 -/
  srcLen : Word
  /-- KEY_LEN, R26 -/
  keyLen : Word
  /-- DST_LEN, R27 -/
  dstLen : Word
  /-- the operand buffer SRC, 20_memory.md R50 -/
  src : Memory
  /-- the operand buffer KEY -/
  key : Memory
  /-- the operand buffer DST -/
  dst : Memory
  /-- the internal working state, R29 to R34 -/
  work : Work
  /-- the turns still to come (the model's own) -/
  turns : List Turn
  /-- what the host's reads returned, newest first (the model's own) -/
  replies : List Reply
  /-- the counter of free values (the model's own) -/
  draws : Nat
  /-- the counter of reset events (the model's own) -/
  resets : Nat
  deriving DecidableEq, Repr

/-- The internal working state at `State.reset`. "All internal working state is unspecified except that
the sequencer is idle", R40: DESIGN CHOICE, zero (log 5). -/
def Work.reset : Work where
  h := ⟨0, 0, 0, 0, 0⟩
  r := ⟨0, 0, 0, 0, 0⟩
  w := Vector.replicate 80 0
  blk := Vector.replicate 64 0
  n := 0
  j := 0
  i := 0
  phase := .idle
  stage := none
  k0 := Vector.replicate 64 0
  inner := Vector.replicate 20 0

/-- The state after reset of an instance with the parameters `cfg`, 10_state.md R40: the five control
registers 0, the buffers holding no value, the sequencer idle. -/
def State.resetWith (cfg : Config) : State where
  cfg := cfg
  cmd := 0
  status := 0
  srcLen := 0
  keyLen := 0
  dstLen := 0
  src := []
  key := []
  dst := []
  work := Work.reset
  turns := []
  replies := []
  draws := 0
  resets := 0

/-- The machine right after reset, 10_state.md R40, with the parameters of `Config.atReset`. -/
def State.reset : State := State.resetWith Config.atReset

end Sys2Proof.Machine
end

