-- ==== Sys2Proof/Machine/Bits.lean ====
section
/-! DEFINITION. Rotation, sequences and byte orders: spec/00_scope.md R13 to R15, spec/20_memory.md R53 to
R55. -/

namespace Sys2Proof.Machine

/-- `ROTL(x, n)` for 1 <= n <= 31, R14. -/
def rotl (x : Word) (n : Nat) : Word := (x <<< n) ||| (x >>> (32 - n))

/-- `b[i..j]`, the elements from index `i` up to and excluding `j`, R15. -/
def slice {α : Type} (b : List α) (i j : Nat) : List α := (b.drop i).take (j - i)

/-- `v[hi:lo]` of a natural number, R11: the field from bit `hi` down to bit `lo`. -/
def field (v hi lo : Nat) : Nat := v / 2 ^ lo % 2 ^ (hi + 1 - lo)

/-- `rep(v, n)`, R15. -/
def rep {α : Type} (v : α) (n : Nat) : List α := List.replicate n v

/-- `LE32(p) = p[0] + 2^8*p[1] + 2^16*p[2] + 2^24*p[3]`, R54. -/
def le32 (p : List Byte) : Word :=
  BitVec.ofNat 32 ((p.getD 0 0).toNat + 2 ^ 8 * (p.getD 1 0).toNat + 2 ^ 16 * (p.getD 2 0).toNat
    + 2 ^ 24 * (p.getD 3 0).toNat)

/-- `BE32(p) = 2^24*p[0] + 2^16*p[1] + 2^8*p[2] + p[3]`, R55. -/
def be32 (p : List Byte) : Word :=
  BitVec.ofNat 32 (2 ^ 24 * (p.getD 0 0).toNat + 2 ^ 16 * (p.getD 1 0).toNat
    + 2 ^ 8 * (p.getD 2 0).toNat + (p.getD 3 0).toNat)

/-- `ToLE32(w) = [w[7:0], w[15:8], w[23:16], w[31:24]]`, R54. -/
def toLE32 (w : Word) : List Byte :=
  [w.extractLsb' 0 8, w.extractLsb' 8 8, w.extractLsb' 16 8, w.extractLsb' 24 8]

/-- `ToBE32(w) = [w[31:24], w[23:16], w[15:8], w[7:0]]`, R55. -/
def toBE32 (w : Word) : List Byte :=
  [w.extractLsb' 24 8, w.extractLsb' 16 8, w.extractLsb' 8 8, w.extractLsb' 0 8]

/-- `LE64(v)[t] = (v div 2^(8t)) mod 256` for t = 0..7, R54. -/
def le64 (v : Nat) : List Byte := (List.range 8).map fun t => BitVec.ofNat 8 (v / 2 ^ (8 * t))

/-- `BE64(v)[t] = (v div 2^(8*(7-t))) mod 256` for t = 0..7, R55. -/
def be64 (v : Nat) : List Byte :=
  (List.range 8).map fun t => BitVec.ofNat 8 (v / 2 ^ (8 * (7 - t)))

/-- The code unit with low byte `lo` (the even address) and high byte `hi`, R53. -/
def unitOf (lo hi : Byte) : CodeUnit := BitVec.ofNat 16 (lo.toNat + 256 * hi.toNat)

/-- The two bytes of a code unit in a buffer, low byte first, R53: `[r mod 256, r div 256]`. -/
def unitBytes (u : CodeUnit) : List Byte :=
  [BitVec.ofNat 8 (u.toNat % 256), BitVec.ofNat 8 (u.toNat / 256)]

/-- The buffer image of a text, R51 and R53: code unit `k` at addresses `2k` and `2k+1`. -/
def textImage (t : List CodeUnit) : List Byte := t.flatMap unitBytes

/-- The first `n` elements of `l`, filled up with `v` where `l` is shorter. -/
def padTo {α : Type} (v : α) : Nat → List α → List α
  | 0, _ => []
  | n + 1, [] => v :: padTo v n []
  | n + 1, x :: xs => x :: padTo v n xs

theorem padTo_length {α : Type} (v : α) (n : Nat) (l : List α) : (padTo v n l).length = n := by
  induction n generalizing l with
  | zero => rfl
  | succ n ih => cases l <;> simp [padTo, ih]

/-- An internal register file of `n` elements loaded from a list. -/
def vecOf {α : Type} (v : α) (n : Nat) (l : List α) : Vector α n :=
  ⟨(padTo v n l).toArray, by simp [padTo_length]⟩

end Sys2Proof.Machine
end

