-- ==== Sys2Proof/Machine/Flags.lean ====
section
/-! DEFINITION. The only flags there are: the fields of STATUS (spec/10_state.md R24, R37) and the error
codes (spec/60_exceptions.md R220). -/

namespace Sys2Proof.Machine

/-- The error code, R220. -/
def CmdError.code : CmdError → BitVec 4
  | .encoding => 1
  | .lengthOverflow => 2
  | .illegalCmd => 3
  | .operandRange => 4

/-- The value of STATUS with these fields (log 14), R24: `BUSY` bit 0, `DONE` bit 1, `ERR` bits 7:4, all other bits
0. -/
def statusWord (busy done : Bool) (err : BitVec 4) : Word :=
  (0 : BitVec 24) ++ (err ++ ((0 : BitVec 2) ++ (BitVec.ofBool done ++ BitVec.ofBool busy)))

/-- `STATUS.BUSY`, bit 0, R24. -/
def statusBusy (v : Word) : Bool := v.getLsbD 0

/-- `STATUS.DONE`, bit 1, R24. -/
def statusDone (v : Word) : Bool := v.getLsbD 1

/-- `STATUS.ERR`, bits 7:4, R24. -/
def statusErr (v : Word) : BitVec 4 := v.extractLsb' 4 4

/-- STATUS while a command is pending: issue sets BUSY and clears DONE and ERR, 46_host_access.md R306. -/
def statusIssued : Word := statusWord true false 0

/-- STATUS after a command that succeeded: `0x00000002`, R307. -/
def statusOk : Word := statusWord false true 0

/-- STATUS after a command that ended in an error: `0x00000002 + 16 * code`, R307. -/
def statusFailed (e : CmdError) : Word := statusWord false true e.code

/-- The legal values of STATUS, R24: idle after reset, busy, done, done with one of the errors 1, 3, 4. -/
def legalStatuses : List Word := [0x00000000, 0x00000001, 0x00000002, 0x00000012, 0x00000032, 0x00000042]

end Sys2Proof.Machine
end

