-- ==== Sys2Proof/Machine/Ops.lean ====
section
/-! DEFINITION. The named operations over buffers and registers (spec/00_scope.md R16, spec/20_memory.md
R50 to R60), the issue of a command (spec/46_host_access.md R306), its completion (R307) and the error entry
every failing command takes (spec/60_exceptions.md R226). There is no return from an error to model: "There
is no return instruction" (R228), the next issue clears the report. -/

namespace Sys2Proof.Machine

/-! ### Buffers -/

/-- The byte at an address, or none where nothing has been written since reset (10_state.md R40). -/
def Memory.read : Memory → Nat → Option Byte
  | [], _ => none
  | (a, v) :: rest, addr => if a = addr then some v else Memory.read rest addr

/-- The buffer with one byte written, kept in the canonical form. -/
def Memory.write : Memory → Nat → Byte → Memory
  | [], addr, v => [(addr, v)]
  | (a, w) :: rest, addr, v =>
    if addr < a then (addr, v) :: (a, w) :: rest
    else if addr = a then (addr, v) :: rest
    else (a, w) :: Memory.write rest addr v

/-- `MemWrite(space, addr, n, v)`, R16: the bytes of `v` written from `addr` on. -/
def Memory.writeBytes : Memory → Nat → List Byte → Memory
  | m, _, [] => m
  | m, addr, v :: vs => Memory.writeBytes (m.write addr v) (addr + 1) vs

/-- `MemRead(space, addr, n)`, R16: the `n` bytes from `addr` on. A byte that holds no value ends the
command (10_state.md R40; log 7). -/
def Memory.readBytes (space : Space) (m : Memory) : Nat → Nat → Except Halt (List Byte)
  | _, 0 => .ok []
  | addr, n + 1 =>
    match m.read addr with
    | none => .error (.unwritten space addr)
    | some v => (Memory.readBytes space m (addr + 1) n).map (v :: ·)

/-- `Unit(space, k)`, 20_memory.md R53: the code unit at addresses `2k` and `2k+1`. -/
def Memory.readUnit (space : Space) (m : Memory) (k : Nat) : Except Halt CodeUnit :=
  (m.readBytes space (2 * k) 2).map fun p => unitOf (p.getD 0 0) (p.getD 1 0)

/-- `[Unit(space, k), ..., Unit(space, k+n-1)]`, 40_utf8_encoder.md R106. -/
def Memory.readUnits (space : Space) (m : Memory) : Nat → Nat → Except Halt (List CodeUnit)
  | _, 0 => .ok []
  | k, n + 1 =>
    (m.readUnit space k).bind fun u => (Memory.readUnits space m (k + 1) n).map (u :: ·)

/-- The contents of a buffer, 20_memory.md R50. -/
def State.buf (s : State) : Space → Memory
  | .src => s.src
  | .key => s.key
  | .dst => s.dst

/-- The state with a buffer's contents replaced. -/
def State.setBuf (s : State) (space : Space) (m : Memory) : State :=
  match space with
  | .src => { s with src := m }
  | .key => { s with key := m }
  | .dst => { s with dst := m }

/-! ### Registers -/

/-- The value of a control register, 10_state.md R22. -/
def State.reg (s : State) : Reg → Word
  | .cmd => s.cmd
  | .status => s.status
  | .srcLen => s.srcLen
  | .keyLen => s.keyLen
  | .dstLen => s.dstLen

/-- `STATUS.BUSY`. -/
def State.busy (s : State) : Bool := statusBusy s.status

/-! ### The internal working state -/

/-- The internal working state between commands: unspecified, every register a free value (10_state.md
R38, 93_implementation_defined.md U3; log 6), with the sequencer idle. -/
def Work.free (draw : Nat) : Work where
  h := ⟨Config.freeWord draw 0, Config.freeWord draw 1, Config.freeWord draw 2,
    Config.freeWord draw 3, Config.freeWord draw 4⟩
  r := ⟨Config.freeWord draw 5, Config.freeWord draw 6, Config.freeWord draw 7,
    Config.freeWord draw 8, Config.freeWord draw 9⟩
  w := Vector.ofFn fun k : Fin 80 => Config.freeWord draw (10 + k.1)
  blk := Vector.ofFn fun k : Fin 64 => Config.freeByte draw k.1
  n := Config.freeCount draw
  j := Config.freeIndex draw 0
  i := Config.freeIndex draw 1
  phase := .idle
  stage := none
  k0 := Vector.ofFn fun k : Fin 64 => Config.freeByte draw (64 + k.1)
  inner := Vector.ofFn fun k : Fin 20 => Config.freeByte draw (128 + k.1)

/-- The internal working state left unspecified, one draw used up (log 6, log 16). -/
def State.freeWork (s : State) : State := { s with work := Work.free s.draws, draws := s.draws + 1 }

/-! ### Issue -/

/-- The issue of a command, 46_host_access.md R306: `CMD <- v`, BUSY set, DONE and ERR cleared, nothing else
changed. -/
def State.issue (s : State) (v : Word) : State := { s with cmd := v, status := statusIssued }

/-! ### Completion -/

/-- The type of a result, 46_host_access.md R310. -/
def Result.type : Result → OperandType
  | .bytes _ => .bytes
  | .text _ => .text

/-- The number of elements of a result. -/
def Result.count : Result → Nat
  | .bytes b => b.length
  | .text t => t.length

/-- The bytes a result occupies in DST, 46_host_access.md R307: a byte result byte for byte, a text two bytes
per code unit, low byte first. -/
def Result.image : Result → List Byte
  | .bytes b => b
  | .text t => textImage t

/-- `bytes_of(type, n)`, 20_memory.md R51, a natural number without wrap-around. -/
def bytesOf : OperandType → Nat → Nat
  | .bytes, n => n
  | .text, n => 2 * n

/-- Error entry, 60_exceptions.md R226: ERR takes the code, DONE is set, BUSY cleared, DST_LEN becomes 0; no
buffer byte and no other register changes. The one way every failing command ends. -/
def State.errorEntry (s : State) (e : CmdError) : State :=
  { s.freeWork with dstLen := 0, status := statusFailed e }

/-- Completion with a result that fits, 46_host_access.md R307, in one step (log 15). -/
def State.succeed (s : State) (r : Result) : State :=
  { s.freeWork with
    dst := s.dst.writeBytes 0 r.image
    dstLen := BitVec.ofNat 32 r.count
    status := statusOk }

/-- Completion, 46_host_access.md R307, given what `Exec` answers: the result is stored if it fits DST, else
the command fails with OPERAND_RANGE; an error is entered; a command that met an operand byte without a value
is refused (10_state.md R40). -/
def State.complete (s : State) : Except Halt Result → Host.Outcome State Fault Refusal
  | .ok r =>
    .next (if bytesOf r.type r.count ≤ s.cfg.dstCap then s.succeed r else s.errorEntry .operandRange)
  | .error (.raise e) => .next (s.errorEntry e)
  | .error (.unwritten space addr) => .refused (.unwrittenOperandByte space addr)

/-! ### Reset and the place of the pending command -/

/-- The reset event, 70_reset_and_hazards.md R250 and R251: the state of 10_state.md R40. The parameters, the
turns to come and what the host has read are not the engine's and stay (log 12). -/
def State.resetEvent (s : State) : State :=
  { State.resetWith s.cfg with
    work := Work.free s.draws
    turns := s.turns
    replies := s.replies
    draws := s.draws + 1
    resets := s.resets + 1 }

/-- `s` with the command word `v` pending and the engine to move next: what a host's write of CMD leaves
(R306). The engine fetches its command from nowhere else (20_memory.md R68). -/
def State.placeCommand (s : State) (v : Word) : State :=
  { s.issue v with turns := .engine :: s.turns }

end Sys2Proof.Machine
end

