-- ==== Sys2Proof/Machine/Utf8.lean ====
section
/-! DEFINITION. The UTF-8 byte encoder: spec/40_utf8_encoder.md R100 to R105. -/

namespace Sys2Proof.Machine

/-- One byte, R101: `[u]`. -/
def enc1 (cp : Nat) : List Byte := [BitVec.ofNat 8 cp]

/-- Two bytes, R102: `[0xC0 + u[10:6], 0x80 + u[5:0]]`. -/
def enc2 (cp : Nat) : List Byte :=
  [BitVec.ofNat 8 (0xC0 + field cp 10 6), BitVec.ofNat 8 (0x80 + field cp 5 0)]

/-- Three bytes, R103: `[0xE0 + u[15:12], 0x80 + u[11:6], 0x80 + u[5:0]]`. -/
def enc3 (cp : Nat) : List Byte :=
  [BitVec.ofNat 8 (0xE0 + field cp 15 12), BitVec.ofNat 8 (0x80 + field cp 11 6),
    BitVec.ofNat 8 (0x80 + field cp 5 0)]

/-- Four bytes, R104: `[0xF0 + cp[20:18], 0x80 + cp[17:12], 0x80 + cp[11:6], 0x80 + cp[5:0]]`. -/
def enc4 (cp : Nat) : List Byte :=
  [BitVec.ofNat 8 (0xF0 + field cp 20 18), BitVec.ofNat 8 (0x80 + field cp 17 12),
    BitVec.ofNat 8 (0x80 + field cp 11 6), BitVec.ofNat 8 (0x80 + field cp 5 0)]

/-- A high surrogate, 20_memory.md R52: 0xD800 to 0xDBFF. -/
def isHigh (u : CodeUnit) : Bool := decide (0xD800 ≤ u.toNat ∧ u.toNat ≤ 0xDBFF)

/-- A low surrogate, 20_memory.md R52: 0xDC00 to 0xDFFF. -/
def isLow (u : CodeUnit) : Bool := decide (0xDC00 ≤ u.toNat ∧ u.toNat ≤ 0xDFFF)

/-- The code point of a surrogate pair, R104: `0x10000 + (hi - 0xD800) * 0x400 + (lo - 0xDC00)`. -/
def pairPoint (hi lo : CodeUnit) : Nat :=
  0x10000 + (hi.toNat - 0xD800) * 0x400 + (lo.toNat - 0xDC00)

/-- The bytes of a unit that stands alone, R101 to R103; an unpaired surrogate is an error, R105. -/
def encUnit (u : CodeUnit) : Except CmdError (List Byte) :=
  if u.toNat < 0x80 then .ok (enc1 u.toNat)
  else if u.toNat < 0x800 then .ok (enc2 u.toNat)
  else if u.toNat < 0xD800 ∨ 0xE000 ≤ u.toNat then .ok (enc3 u.toNat)
  else .error .encoding

/-- `b` put before what the rest of a text encodes to; the first error in text order decides, R105. -/
def prepend (b r : Except CmdError (List Byte)) : Except CmdError (List Byte) :=
  b.bind fun x => r.map (x ++ ·)

/-- `Utf8Encode(t)`, R100: the text from the first unit to the last, a surrogate pair taken as one code
point. -/
def utf8Encode : List CodeUnit → Except CmdError (List Byte)
  | [] => .ok []
  | [u] => encUnit u
  | u :: v :: rest =>
    if isHigh u && isLow v then prepend (.ok (enc4 (pairPoint u v))) (utf8Encode rest)
    else prepend (encUnit u) (utf8Encode (v :: rest))

end Sys2Proof.Machine
end

