-- ==== Sys2Proof/Machine/Operands.lean ====
section
/-! DEFINITION. The operand forms: the range check (spec/20_memory.md R62) and the operand fetch
(spec/40_utf8_encoder.md R106). Every command takes its source from SRC and its length from SRC_LEN, HMACSHA1 its
key from KEY and KEY_LEN (spec/30_encoding.md R80). -/

namespace Sys2Proof.Machine

/-- A `raise` in a function of the spec's pseudocode ends the command with that error, 00_scope.md R16. -/
def raising {α : Type} : Except CmdError α → Except Halt α
  | .ok a => .ok a
  | .error e => .error (.raise e)

/-- `Fetch(space, n, T)`, 40_utf8_encoder.md R106: the bytes as they stand, or the UTF-8 bytes of the text. -/
def State.fetch (s : State) (space : Space) (n : Nat) : OperandType → Except Halt (List Byte)
  | .bytes => (s.buf space).readBytes space 0 n
  | .text => ((s.buf space).readUnits space 0 n).bind fun t => raising (utf8Encode t)

/-- The range check of an operand, 20_memory.md R62, before anything is read: a failing check ends the command with
OPERAND_RANGE. -/
def State.inRange {α : Type} (s : State) (space : Space) (ty : OperandType) (len : Word)
    (k : Except Halt α) : Except Halt α :=
  if bytesOf ty len.toNat ≤ s.cfg.cap space then k else .error (.raise .operandRange)

/-- The source operand of a hash command or of UTF8ENC, fetched after its range check. -/
def State.source (s : State) (ty : OperandType) : Except Halt (List Byte) :=
  s.inRange .src ty s.srcLen (s.fetch .src s.srcLen.toNat ty)

end Sys2Proof.Machine
end

