-- ==== Sys2Proof/Machine/Base64.lean ====
section
/-! DEFINITION. The Base64 encoder and the command TOBASE64: spec/45_base64_codec.md R205 to R209. There is no decoder
(R210). -/

namespace Sys2Proof.Machine

/-- `B64Char(v)` for 0 <= v <= 63, R205. -/
def b64Char (v : Nat) : CodeUnit :=
  BitVec.ofNat 16 <|
    if v ≤ 25 then 0x41 + v
    else if v ≤ 51 then 0x61 + (v - 26)
    else if v ≤ 61 then 0x30 + (v - 52)
    else if v = 62 then 0x2B
    else 0x2F

/-- The pad character `=`, R205. -/
def b64Pad : CodeUnit := 0x3D

/-- `ToBase64(b)`, R208: full groups of three bytes (R206) from the first byte on, then the final partial group (R207). -/
def toBase64 : List Byte → List CodeUnit
  | [] => []
  | [x] =>
    [b64Char (field x.toNat 7 2), b64Char (16 * field x.toNat 1 0), b64Pad, b64Pad]
  | [x, y] =>
    [b64Char (field x.toNat 7 2), b64Char (16 * field x.toNat 1 0 + field y.toNat 7 4),
      b64Char (4 * field y.toNat 3 0), b64Pad]
  | x :: y :: z :: rest =>
    [b64Char (field x.toNat 7 2), b64Char (16 * field x.toNat 1 0 + field y.toNat 7 4),
      b64Char (4 * field y.toNat 3 0 + field z.toNat 7 6), b64Char (field z.toNat 5 0)] ++ toBase64 rest

/-- `Result_TOBASE64()`, R209. -/
def resultTobase64 (s : State) : Except Halt Result := (s.source .bytes).map fun b => .text (toBase64 b)

/-- TOBASE64, R209: render bytes as Base64 text. -/
def execTobase64 (s : State) : Host.Outcome State Fault Refusal := s.complete (resultTobase64 s)

end Sys2Proof.Machine
end

