-- ==== Sys2Proof/Machine/Hex.lean ====
section
/-! DEFINITION. The hex codec and the commands TOHEX and FROMHEX: spec/44_hex_codec.md R190 to R196. -/

namespace Sys2Proof.Machine

/-- `HexDigit(v)` for 0 <= v <= 15, R190: `0x30 + v` for v <= 9, `0x61 + (v - 10)` for v >= 10. -/
def hexDigit (v : Nat) : CodeUnit := BitVec.ofNat 16 (if v ≤ 9 then 0x30 + v else 0x61 + (v - 10))

/-- `ToHex(b)`, R191: two digits per byte, the high four bits first. -/
def toHex (b : List Byte) : List CodeUnit :=
  b.flatMap fun x => [hexDigit (field x.toNat 7 4), hexDigit (field x.toNat 3 0)]

/-- `HexValue(u)`, R193, none where `u` is not a hex digit. -/
def hexValue (u : CodeUnit) : Option Nat :=
  if 0x30 ≤ u.toNat ∧ u.toNat ≤ 0x39 then some (u.toNat - 0x30)
  else if 0x61 ≤ u.toNat ∧ u.toNat ≤ 0x66 then some (u.toNat - 0x61 + 10)
  else if 0x41 ≤ u.toNat ∧ u.toNat ≤ 0x46 then some (u.toNat - 0x41 + 10)
  else none

/-- `FromHex(s)`, R194: an odd length or a unit that is not a hex digit is `EncodingError`, with no partial output. -/
def fromHex : List CodeUnit → Except CmdError (List Byte)
  | [] => .ok []
  | [_] => .error .encoding
  | u :: v :: rest =>
    match hexValue u, hexValue v with
    | some hi, some lo => (fromHex rest).map (BitVec.ofNat 8 (16 * hi + lo) :: ·)
    | _, _ => .error .encoding

/-- `Result_TOHEX()`, R192. -/
def resultTohex (s : State) : Except Halt Result := (s.source .bytes).map fun b => .text (toHex b)

/-- TOHEX, R192: render bytes as hex text. -/
def execTohex (s : State) : Host.Outcome State Fault Refusal := s.complete (resultTohex s)

/-- `Result_FROMHEX()`, R196. -/
def resultFromhex (s : State) : Except Halt Result :=
  s.inRange .src .text s.srcLen <|
    (s.src.readUnits .src 0 s.srcLen.toNat).bind fun t => raising ((fromHex t).map .bytes)

/-- FROMHEX, R196: parse hex text into bytes. -/
def execFromhex (s : State) : Host.Outcome State Fault Refusal := s.complete (resultFromhex s)

end Sys2Proof.Machine
end

