-- ==== Sys2Proof/Machine/Padding.lean ====
section
/-! DEFINITION. The padding shared by MD5 and SHA-1 (spec/41_md5.md R120, R121) and the cutting of the padded
message into blocks (spec/20_memory.md R57). -/

namespace Sys2Proof.Machine

/-- The byte order of the length word, R120. -/
inductive ByteOrder where
  | le
  | be
  deriving DecidableEq, Repr

/-- `z = (55 - n) mod 64`, the non-negative remainder, R120. -/
def padZeros (n : Nat) : Nat := (119 - n % 64) % 64

/-- The length word, R120: the message's length in bits, in eight bytes. -/
def lengthWord : ByteOrder → Nat → List Byte
  | .le, bits => le64 bits
  | .be, bits => be64 bits

/-- `Pad(m, order) = m || [0x80] || rep(0x00, z) || LE64(8n) or BE64(8n)`, R120. The engine forms no message of
2^61 bytes or more (R122; log 17). -/
def pad (m : List Byte) (order : ByteOrder) : List Byte :=
  m ++ [0x80] ++ rep 0x00 (padZeros m.length) ++ lengthWord order (8 * m.length)

/-- The blocks of a padded message in ascending order: block `j` is `p[64j .. 64j+64]`, R121. -/
def blocks (p : List Byte) : List (List Byte) :=
  (List.range (p.length / 64)).map fun j => slice p (64 * j) (64 * j + 64)

end Sys2Proof.Machine
end

