-- ==== Sys2Proof/Machine/Sha1.lean ====
section
/-! DEFINITION. The SHA-1 compression engine and the command SHA1: spec/42_sha1.md R150 to R161. -/

namespace Sys2Proof.Machine

/-- `SHA1_IV`, R151. -/
def sha1Iv : Sha1Regs := ⟨0x67452301, 0xefcdab89, 0x98badcfe, 0x10325476, 0xc3d2e1f0⟩

/-- The round constant of round `i`, R154. -/
def sha1K (i : Nat) : Word :=
  if i ≤ 19 then 0x5a827999
  else if i ≤ 39 then 0x6ed9eba1
  else if i ≤ 59 then 0x8f1bbcdc
  else 0xca62c1d6

/-- The round function of round `i`, R155. -/
def sha1F (i : Nat) (b c d : Word) : Word :=
  if i ≤ 19 then (b &&& c) ||| (~~~b &&& d)
  else if i ≤ 39 then b ^^^ c ^^^ d
  else if i ≤ 59 then (b &&& c) ||| (b &&& d) ||| (c &&& d)
  else b ^^^ c ^^^ d

/-- The first sixteen schedule words, R152: `W[q] = BE32(blk[4q .. 4q+4])`. -/
def sha1Words (blk : List Byte) : List Word :=
  (List.range 16).map fun q => be32 (slice blk (4 * q) (4 * q + 4))

/-- One word of the schedule's expansion, R153: `W[q] = ROTL(W[q-3] XOR W[q-8] XOR W[q-14] XOR W[q-16], 1)`. -/
def sha1Expand (w : List Word) (q : Nat) : List Word :=
  w ++ [rotl (w.getD (q - 3) 0 ^^^ w.getD (q - 8) 0 ^^^ w.getD (q - 14) 0 ^^^ w.getD (q - 16) 0) 1]

/-- The whole schedule W[0..79], R152 and R153, q = 16..79 in ascending order. -/
def sha1Schedule (blk : List Byte) : List Word := (List.range' 16 64).foldl sha1Expand (sha1Words blk)

/-- One round, R156: `temp = ROTL(a, 5) +32 f +32 e +32 K +32 W[i]`, then
`(a', b', c', d', e') = (temp, a, ROTL(b, 30), c, d)`. -/
def sha1Round (w : List Word) (q : Sha1Regs) (i : Nat) : Sha1Regs :=
  { a := rotl q.a 5 + sha1F i q.b q.c q.d + q.e + sha1K i + w.getD i 0
    b := q.a
    c := rotl q.b 30
    d := q.c
    e := q.d }

/-- Rounds 0 to 79 in ascending order, R158 and 10_state.md R33. -/
def sha1Rounds (w : List Word) (q : Sha1Regs) : Sha1Regs := (List.range 80).foldl (sha1Round w) q

/-- The feed-forward, R157. -/
def sha1Feed (h q : Sha1Regs) : Sha1Regs :=
  { a := h.a + q.a, b := h.b + q.b, c := h.c + q.c, d := h.d + q.d, e := h.e + q.e }

/-- `Sha1Compress(H, blk)`, R158. -/
def sha1Compress (h : Sha1Regs) (blk : List Byte) : Sha1Regs :=
  sha1Feed h (sha1Rounds (sha1Schedule blk) h)

/-- The digest of a final chaining value, R159. -/
def sha1Digest (h : Sha1Regs) : List Byte :=
  toBE32 h.a ++ toBE32 h.b ++ toBE32 h.c ++ toBE32 h.d ++ toBE32 h.e

/-- `Sha1(m)`, R160. -/
def sha1 (m : List Byte) : List Byte := sha1Digest ((blocks (pad m .be)).foldl sha1Compress sha1Iv)

/-! ### The unit's run over the internal working state -/

/-- Start of a message, R160: the byte counter and the initial chaining value are loaded. -/
def Work.sha1Start (wk : Work) (m : List Byte) : Work :=
  { wk with n := BitVec.ofNat 64 m.length, h := sha1Iv, j := 0, phase := .padding }

/-- One block: the block buffer and the schedule are loaded, the rounds run on a copy of the chaining value, and the
chaining value is fed forward, R152 to R158. -/
def Work.sha1Block (wk : Work) (blk : List Byte) : Work :=
  let w := sha1Schedule blk
  let q := sha1Rounds w wk.h
  { wk with
    blk := vecOf 0 64 blk
    w := vecOf 0 80 w
    r := q
    h := sha1Feed wk.h q
    i := 80
    phase := .compressing
    j := wk.j + 1 }

/-- The unit run over a whole message, blocks in ascending order (10_state.md R33). -/
def Work.sha1Run (wk : Work) (m : List Byte) : Work :=
  (blocks (pad m .be)).foldl Work.sha1Block (wk.sha1Start m)

/-! ### The command -/

/-- `Result_SHA1(TM)`, R161: the digest left in H[0..4] by the unit's run. -/
def resultSha1 (tm : OperandType) (s : State) : Except Halt Result :=
  (s.source tm).map fun m => .bytes (sha1Digest (s.work.sha1Run m).h)

/-- SHA1, R161: digest of a message. -/
def execSha1 (tm : OperandType) (s : State) : Host.Outcome State Fault Refusal := s.complete (resultSha1 tm s)

end Sys2Proof.Machine
end

