-- ==== Sys2Proof/Machine/Hmac.lean ====
section
/-! DEFINITION. The HMAC-SHA1 processor and the command HMACSHA1: spec/43_hmac_sha1.md R175 to R181. -/

namespace Sys2Proof.Machine

/-- `NormKey(k)`, R175. -/
def normKey (k : List Byte) : List Byte :=
  if k.length > 64 then sha1 k ++ rep 0x00 44 else k ++ rep 0x00 (64 - k.length)

/-- `ipad`, R176. -/
def ipad (k0 : List Byte) : List Byte := k0.map (· ^^^ 0x36)

/-- `opad`, R176. -/
def opad (k0 : List Byte) : List Byte := k0.map (· ^^^ 0x5c)

/-- `HmacSha1(m, k)`, R177 to R179. -/
def hmacSha1 (m k : List Byte) : List Byte :=
  let k0 := normKey k
  let inner := sha1 (ipad k0 ++ m)
  sha1 (opad k0 ++ inner)

/-! ### The processor's run over the internal working state -/

/-- Stage key hash, only when the key has more than 64 bytes: K0 is loaded, R175 and 10_state.md R34. -/
def Work.hmacKey (wk : Work) (k : List Byte) : Work :=
  if k.length > 64 then
    let hashed := { wk with stage := some .keyHash }.sha1Run k
    { hashed with k0 := vecOf 0 64 (sha1Digest hashed.h) }
  else { wk with k0 := vecOf 0 64 k }

/-- Stage inner hash, R177: INNER takes the raw 20 bytes. -/
def Work.hmacInner (wk : Work) (m : List Byte) : Work :=
  let hashed := { wk with stage := some .innerHash }.sha1Run (ipad wk.k0.toList ++ m)
  { hashed with inner := vecOf 0 20 (sha1Digest hashed.h) }

/-- Stage outer hash, R178: over the raw bytes of INNER. -/
def Work.hmacOuter (wk : Work) : Work :=
  { wk with stage := some .outerHash }.sha1Run (opad wk.k0.toList ++ wk.inner.toList)

/-- The three stages in the order key, inner, outer (10_state.md R33). -/
def Work.hmacRun (wk : Work) (m k : List Byte) : Work := ((wk.hmacKey k).hmacInner m).hmacOuter

/-! ### The command -/

/-- `Result_HMACSHA1(TM, TK)`, R181: both range checks, then the message, then the key; the digest left in H[0..4] by
the processor's run. -/
def resultHmacsha1 (tm tk : OperandType) (s : State) : Except Halt Result :=
  s.inRange .src tm s.srcLen <|
    s.inRange .key tk s.keyLen <|
      (s.fetch .src s.srcLen.toNat tm).bind fun m =>
        (s.fetch .key s.keyLen.toNat tk).map fun k =>
          .bytes (sha1Digest (s.work.hmacRun m k).h)

/-- HMACSHA1, R181: keyed digest of a message. -/
def execHmacsha1 (tm tk : OperandType) (s : State) : Host.Outcome State Fault Refusal :=
  s.complete (resultHmacsha1 tm tk s)

end Sys2Proof.Machine
end

