-- ==== Sys2Proof/Machine/Md5.lean ====
section
/-! DEFINITION. The MD5 compression engine and the command MD5: spec/41_md5.md R123 to R134. -/

namespace Sys2Proof.Machine

/-- `MD5_IV`, R123. -/
def md5Iv : Md5Regs := ⟨0x67452301, 0xefcdab89, 0x98badcfe, 0x10325476⟩

/-- The round constants `K[0..63]` as the table of R129 prints them, a stored table (10_state.md R35). -/
def md5K : List Word :=
  [0xd76aa478, 0xe8c7b756, 0x242070db, 0xc1bdceee,
    0xf57c0faf, 0x4787c62a, 0xa8304613, 0xfd469501,
    0x698098d8, 0x8b44f7af, 0xffff5bb1, 0x895cd7be,
    0x6b901122, 0xfd987193, 0xa679438e, 0x49b40821] ++
  [0xf61e2562, 0xc040b340, 0x265e5a51, 0xe9b6c7aa,
    0xd62f105d, 0x02441453, 0xd8a1e681, 0xe7d3fbc8,
    0x21e1cde6, 0xc33707d6, 0xf4d50d87, 0x455a14ed,
    0xa9e3e905, 0xfcefa3f8, 0x676f02d9, 0x8d2a4c8a] ++
  [0xfffa3942, 0x8771f681, 0x6d9d6122, 0xfde5380c,
    0xa4beea44, 0x4bdecfa9, 0xf6bb4b60, 0xbebfbc70,
    0x289b7ec6, 0xeaa127fa, 0xd4ef3085, 0x04881d05,
    0xd9d4d039, 0xe6db99e5, 0x1fa27cf8, 0xc4ac5665] ++
  [0xf4292244, 0x432aff97, 0xab9423a7, 0xfc93a039,
    0x655b59c3, 0x8f0ccc92, 0xffeff47d, 0x85845dd1,
    0x6fa87e4f, 0xfe2ce6e0, 0xa3014314, 0x4e0811a1,
    0xf7537e82, 0xbd3af235, 0x2ad7d2bb, 0xeb86d391]

/-- The 16-entry table `S` of rotation amounts, R128. -/
def md5S : List Nat := [7, 12, 17, 22, 5, 9, 14, 20, 4, 11, 16, 23, 6, 10, 15, 21]

/-- The rotation amount of round `i`, R128: `S[4 * (i div 16) + (i mod 4)]`. -/
def md5Shift (i : Nat) : Nat := md5S.getD (4 * (i / 16) + i % 4) 0

/-- The round function of round `i`, R125. -/
def md5F (i : Nat) (b c d : Word) : Word :=
  if i ≤ 15 then (b &&& c) ||| (~~~b &&& d)
  else if i ≤ 31 then (d &&& b) ||| (~~~d &&& c)
  else if i ≤ 47 then b ^^^ c ^^^ d
  else c ^^^ (b ||| ~~~d)

/-- The message index of round `i`, R126. -/
def md5G (i : Nat) : Nat :=
  if i ≤ 15 then i
  else if i ≤ 31 then (5 * i + 1) % 16
  else if i ≤ 47 then (3 * i + 5) % 16
  else 7 * i % 16

/-- The sixteen message words of a block, R124: `W[t] = LE32(blk[4t .. 4t+4])`. -/
def md5Words (blk : List Byte) : List Word :=
  (List.range 16).map fun t => le32 (slice blk (4 * t) (4 * t + 4))

/-- One round, R129: `(a', b', c', d') = (d, b +32 r, b, c)` with `r = ROTL(a +32 f +32 K[i] +32 W[g], s[i])`. -/
def md5Round (w : List Word) (q : Md5Regs) (i : Nat) : Md5Regs :=
  let t := q.a + md5F i q.b q.c q.d + md5K.getD i 0 + w.getD (md5G i) 0
  { a := q.d, b := q.b + rotl t (md5Shift i), c := q.b, d := q.c }

/-- Rounds 0 to 63 in ascending order, R131 and 10_state.md R33. -/
def md5Rounds (w : List Word) (q : Md5Regs) : Md5Regs := (List.range 64).foldl (md5Round w) q

/-- The feed-forward, R130. -/
def md5Feed (h q : Md5Regs) : Md5Regs :=
  { a := h.a + q.a, b := h.b + q.b, c := h.c + q.c, d := h.d + q.d }

/-- `Md5Compress(H, blk)`, R131. -/
def md5Compress (h : Md5Regs) (blk : List Byte) : Md5Regs := md5Feed h (md5Rounds (md5Words blk) h)

/-- The digest of a final chaining value, R132. -/
def md5Digest (h : Md5Regs) : List Byte := toLE32 h.a ++ toLE32 h.b ++ toLE32 h.c ++ toLE32 h.d

/-- `Md5(m)`, R133. -/
def md5 (m : List Byte) : List Byte := md5Digest ((blocks (pad m .le)).foldl md5Compress md5Iv)

/-! ### The unit's run over the internal working state -/

/-- The first four of five registers, the ones MD5 uses (10_state.md R29, R30). -/
def Sha1Regs.md5 (r : Sha1Regs) : Md5Regs := ⟨r.a, r.b, r.c, r.d⟩

/-- The first four of five registers replaced. -/
def Sha1Regs.setMd5 (r : Sha1Regs) (q : Md5Regs) : Sha1Regs := ⟨q.a, q.b, q.c, q.d, r.e⟩

/-- Start of a message, R133: the byte counter and the initial chaining value are loaded. -/
def Work.md5Start (wk : Work) (m : List Byte) : Work :=
  { wk with n := BitVec.ofNat 64 m.length, h := wk.h.setMd5 md5Iv, j := 0, phase := .padding }

/-- One block: the block buffer and W[0..15] are loaded, the rounds run on a copy of the chaining value, and the
chaining value is fed forward, R124 to R131. -/
def Work.md5Block (wk : Work) (blk : List Byte) : Work :=
  let w := md5Words blk
  let q := md5Rounds w wk.h.md5
  { wk with
    blk := vecOf 0 64 blk
    w := vecOf 0 80 (w ++ wk.w.toList.drop 16)
    r := wk.r.setMd5 q
    h := wk.h.setMd5 (md5Feed wk.h.md5 q)
    i := 64
    phase := .compressing
    j := wk.j + 1 }

/-- The unit run over a whole message, blocks in ascending order (10_state.md R33). -/
def Work.md5Run (wk : Work) (m : List Byte) : Work :=
  (blocks (pad m .le)).foldl Work.md5Block (wk.md5Start m)

/-! ### The command -/

/-- `Result_MD5(TM)`, R134: the digest left in H[0..3] by the unit's run. -/
def resultMd5 (tm : OperandType) (s : State) : Except Halt Result :=
  (s.source tm).map fun m => .bytes (md5Digest (s.work.md5Run m).h.md5)

/-- MD5, R134: digest of a message. -/
def execMd5 (tm : OperandType) (s : State) : Host.Outcome State Fault Refusal := s.complete (resultMd5 tm s)

end Sys2Proof.Machine
end

