-- ==== Sys2Proof/Machine/Utf8Enc.lean ====
section
/-! DEFINITION. The command UTF8ENC: spec/40_utf8_encoder.md R109. -/

namespace Sys2Proof.Machine

/-- `Result_UTF8ENC()`, R109. -/
def resultUtf8enc (s : State) : Except Halt Result := (s.source .text).map .bytes

/-- UTF8ENC, R109: encode a text as UTF-8 bytes. -/
def execUtf8enc (s : State) : Host.Outcome State Fault Refusal := s.complete (resultUtf8enc s)

end Sys2Proof.Machine
end

