-- ==== Sys2Proof/Machine/Dispatch.lean ====
section
/-! DEFINITION. The dispatch of spec/46_host_access.md R310: one arm per command. -/

namespace Sys2Proof.Machine

/-- The completion of a legal command, 46_host_access.md R307 and R310. -/
def exec (i : Instr) (s : State) : Host.Outcome State Fault Refusal :=
  match i with
  | .utf8enc => Sys2Proof.Machine.execUtf8enc s
  | .md5 tm => Sys2Proof.Machine.execMd5 tm s
  | .sha1 tm => Sys2Proof.Machine.execSha1 tm s
  | .hmacsha1 tm tk => Sys2Proof.Machine.execHmacsha1 tm tk s
  | .tohex => Sys2Proof.Machine.execTohex s
  | .fromhex => Sys2Proof.Machine.execFromhex s
  | .tobase64 => Sys2Proof.Machine.execTobase64 s

end Sys2Proof.Machine
end

