-- ==== Sys2Proof/Machine/HostAccess.lean ====
section
/-! DEFINITION. The host's accesses: spec/46_host_access.md R300 to R306 and, while a command is pending, R308. -/

namespace Sys2Proof.Machine

/-- A read's answer, given to the host. -/
def State.reply (s : State) (r : Reply) : State := { s with replies := r :: s.replies }

/-- The same, with one free value used up. -/
def State.replyDrawn (s : State) (r : Reply) : State :=
  { s with replies := r :: s.replies, draws := s.draws + 1 }

/-- `ReadReg(r)`: the register's value and no other change (R301), also while busy, but for DST_LEN, which then reads
as any value (R308; log 9). -/
def State.readReg (s : State) (r : Reg) : State :=
  if s.busy && r == .dstLen then s.replyDrawn (.reg r (Config.busyReadWord s.draws))
  else s.reply (.reg r (s.reg r))

/-- `WriteReg(r, v)`: ignored while busy (R308); else CMD issues the command (R306), SRC_LEN and KEY_LEN take the value
(R302), STATUS and DST_LEN are read only (R303). -/
def State.writeReg (s : State) (r : Reg) (v : Word) : State :=
  if s.busy then s
  else match r with
    | .cmd => s.issue v
    | .status => s
    | .srcLen => { s with srcLen := v }
    | .keyLen => { s with keyLen := v }
    | .dstLen => s

/-- What byte `addr` of a buffer reads as while no command is pending, R305: its value, or any value where nothing has
been written since reset, the same one until the next reset (20_memory.md R59; log 8). -/
def State.byteAt (s : State) (space : Space) (addr : Nat) : Byte :=
  ((s.buf space).read addr).getD (Config.unwrittenByte s.resets space addr)

/-- `ReadBuf(space, addr)`: the byte and no change (R305); while busy any value (R308; log 9). -/
def State.readBuf (s : State) (space : Space) (addr : Nat) : State :=
  if s.busy then s.replyDrawn (.buf space addr (Config.busyReadByte s.draws))
  else s.reply (.buf space addr (s.byteAt space addr))

/-- `WriteBuf(space, addr, v)`: the byte is set (R304); ignored while busy (R308). -/
def State.writeBuf (s : State) (space : Space) (addr : Nat) (v : Byte) : State :=
  if s.busy then s else s.setBuf space ((s.buf space).write addr v)

/-- An access to a buffer address, which must exist: `0 <= addr < CAP(space)`, R300 (log 11). -/
def State.atAddress (s : State) (space : Space) (addr : Nat) (t : State) : Host.Outcome State Fault Refusal :=
  if addr < s.cfg.cap space then .next t else .fault (.addressOutsideBuffer space addr)

/-- One host access, R300. "Every action is always enabled." -/
def hostAccess (a : HostAction) (s : State) : Host.Outcome State Fault Refusal :=
  match a with
  | .readReg r => .next (s.readReg r)
  | .writeReg r v => .next (s.writeReg r v)
  | .readBuf space addr => s.atAddress space addr (s.readBuf space addr)
  | .writeBuf space addr v => s.atAddress space addr (s.writeBuf space addr v)

end Sys2Proof.Machine
end

