-- ==== Sys2Proof/Machine/Engine.lean ====
section
/-! DEFINITION. The engine's only step (spec/46_host_access.md R307) and whose turn it is (spec/10_state.md R20,
spec/70_reset_and_hazards.md R250). -/

namespace Sys2Proof.Machine

/-- The completion of the pending command, R307 and R310: CMD is decoded and run; an illegal word ends with ILLEGAL_CMD,
no operand read and no length examined (60_exceptions.md R223). -/
def State.completePending (s : State) : Host.Outcome State Fault Refusal :=
  match decode s.cmd with
  | .ok i => exec i s
  | .error _ => .next (s.errorEntry .illegalCmd)

/-- The engine's turn: its step is "enabled exactly when STATUS.BUSY = 1", R307; while idle it holds its registers and
buffers (60_exceptions.md R237; log 2). -/
def State.engineTurn (s : State) : Host.Outcome State Fault Refusal :=
  if s.busy then s.completePending else .next s

/-- One turn. With no turn listed the engine moves: "an enabled completion step is eventually taken", R309 (log 1). -/
def State.takeTurn (s : State) : Host.Outcome State Fault Refusal :=
  match s.turns with
  | [] => s.engineTurn
  | .engine :: rest => { s with turns := rest }.engineTurn
  | .host a :: rest => hostAccess a { s with turns := rest }
  | .reset :: rest => .next { s with turns := rest }.resetEvent

end Sys2Proof.Machine
end

