-- ==== Sys2Proof/Machine/Step.lean ====
section
/-! DEFINITION. One step of the machine, and the place its next command is fetched from (spec/20_memory.md R68). -/

namespace Sys2Proof.Machine

/-- One step: the next turn's. -/
def step (s : State) : Host.Outcome State Fault Refusal := s.takeTurn

/-- `s` with the command whose bits are `w` pending in CMD and the engine to move next, so that the next step completes it.
This is what a host's write of CMD leaves (46_host_access.md R306), and it stands for that write (log 13). -/
def State.withFetchWord (s : State) (nbits w : Nat) : State := s.placeCommand (BitVec.ofNat 32 (w % 2 ^ nbits))

end Sys2Proof.Machine
end

