-- ==== Sys2Proof/Machine/HostProgram.lean ====
section
/-! DEFINITION. Host programs: the notation of spec/30_encoding.md R83, each line expanded to the host accesses of
46_host_access.md R300, the pseudo-instructions of R84, and the function calls of 46_host_access.md R311. When the engine moves between the accesses is the argument
`Schedule` (log 18). -/

namespace Sys2Proof.Machine

/-! ### Accesses under a schedule -/

/-- DESIGN CHOICE, log 18. When the engine moves while a host program runs, which the spec leaves open (46_host_access.md
R309, 70_reset_and_hazards.md R260): one entry for each host access of the program, true where an engine turn comes just before
that access. Past its last entry an engine turn comes before every access, so that an enabled completion is eventually taken
(R309). -/
abbrev Schedule := List Bool

/-- How a host program, or a part of one, comes out; `α` is what the host has learned from it. -/
inductive ProgramOutcome (α : Type) where
  /-- every access has been made; `schedule` is what is left of the schedule -/
  | finished (a : α) (schedule : Schedule) (s : State)
  /-- a `WAIT` has not read `DONE = 1` although the engine has had its turn: no command was ever issued, and `WAIT` reads
  STATUS for ever (log 18) -/
  | waiting (s : State)
  | fault (f : Fault)
  | refused (r : Refusal)
  deriving DecidableEq, Repr

/-- One part of a host program after another: what does not finish ends it. -/
def ProgramOutcome.andThen {α β : Type} (o : ProgramOutcome α) (k : α → Schedule → State → ProgramOutcome β) :
    ProgramOutcome β :=
  match o with
  | .finished a schedule s => k a schedule s
  | .waiting s => .waiting s
  | .fault f => .fault f
  | .refused r => .refused r

/-- These turns, before whatever turns are still to come. -/
def runTurns (ts : List Turn) (s : State) : Host.Outcome State Fault Refusal :=
  Sys2Proof.core.run ts.length { s with turns := ts ++ s.turns }

/-- The turns of one access: the engine's too where the schedule says so. -/
def accessTurns (a : HostAction) (schedule : Schedule) : List Turn :=
  if schedule.headD true then [.engine, .host a] else [.host a]

/-- One host access of a program. -/
def access (a : HostAction) (schedule : Schedule) (s : State) : ProgramOutcome Unit :=
  match runTurns (accessTurns a schedule) s with
  | .next t => .finished () schedule.tail t
  | .fault f => .fault f
  | .refused r => .refused r

/-- Host accesses in program order, 20_memory.md R64. -/
def accesses : List HostAction → Schedule → State → ProgramOutcome Unit
  | [], schedule, s => .finished () schedule s
  | a :: rest, schedule, s => (access a schedule s).andThen fun _ => accesses rest

/-- The value the host's latest read returned, where that was a register's; it is asked for right after such a read. -/
def State.lastReg (s : State) : Word :=
  match s.replies with
  | .reg _ v :: _ => v
  | _ => 0

/-- `ReadReg(r)` in a program: the value the host reads. -/
def readRegister (r : Reg) (schedule : Schedule) (s : State) : ProgramOutcome Word :=
  (access (.readReg r) schedule s).andThen fun _ schedule t => .finished t.lastReg schedule t

/-- The byte a reply holds, where it is a buffer read's. -/
def Reply.byte? : Reply → Option Byte
  | .reg _ _ => none
  | .buf _ _ v => some v

/-- The bytes the host's latest `n` reads returned, in the order they were read. -/
def State.lastBytes (s : State) (n : Nat) : List Byte := (s.replies.take n).reverse.filterMap Reply.byte?

/-- The `n` bytes of a buffer from address 0, one access each. -/
def readBytesOf (space : Space) (n : Nat) (schedule : Schedule) (s : State) : ProgramOutcome (List Byte) :=
  (accesses ((List.range n).map fun a => .readBuf space a) schedule s).andThen fun _ schedule t =>
    .finished (t.lastBytes n) schedule t

/-! ### Operands -/

/-- The buffers a program line writes an operand to, R83. -/
inductive Target where
  | src
  | key
  deriving DecidableEq, Repr

/-- The buffer written. -/
def Target.space : Target → Space
  | .src => .src
  | .key => .key

/-- The length register that goes with the buffer, 10_state.md R25 and R26. -/
def Target.len : Target → Reg
  | .src => .srcLen
  | .key => .keyLen

/-- The bytes written to a buffer from address 0, one access each, and a value written to its length register, R83. -/
def putBytes (target : Target) (image : List Byte) (count : Word) : List HostAction :=
  (image.zipIdx.map fun p => .writeBuf target.space p.2 p.1) ++ [.writeReg target.len count]

/-- `SRC <- bytes(...)` or `KEY <- bytes(...)`, R83. -/
def loadBytes (target : Target) (b : List Byte) : List HostAction := putBytes target b (BitVec.ofNat 32 b.length)

/-- `SRC <- units(...)` or `KEY <- units(...)`, R83: the code units little-endian from address 0. -/
def loadUnits (target : Target) (t : List CodeUnit) : List HostAction :=
  putBytes target (textImage t) (BitVec.ofNat 32 t.length)

/-- The UTF-16 code units of one character: its code point, or the surrogate pair whose code point it is by the formula of
40_utf8_encoder.md R104. -/
def charUnits (c : Char) : List CodeUnit :=
  if c.toNat < 0x10000 then [BitVec.ofNat 16 c.toNat]
  else [BitVec.ofNat 16 (0xD800 + (c.toNat - 0x10000) / 0x400), BitVec.ofNat 16 (0xDC00 + (c.toNat - 0x10000) % 0x400)]

/-- The UTF-16 code units of a string, R83. -/
def utf16 (t : String) : List CodeUnit := t.toList.flatMap charUnits

/-- `SRC <- text("...")` or `KEY <- text("...")`, R83. -/
def loadText (target : Target) (t : String) : List HostAction := loadUnits target (utf16 t)

/-! ### Commands -/

/-- A mnemonic on a line, a write of its command word to CMD, R83. -/
def issueAction (i : Instr) : HostAction := .writeReg .cmd (encode i)

/-- `WAIT`, R83: STATUS is read until the host reads `DONE = 1`; the value then read. The schedule says how many reads that
takes (log 18); once it is used up the engine has moved before the read, and a read without DONE then is one of an engine that
has no command. -/
def waitDone : Schedule → State → ProgramOutcome Word
  | [], s =>
    (readRegister .status [] s).andThen fun v rest t => if statusDone v then .finished v rest t else .waiting t
  | b :: rest, s =>
    (readRegister .status (b :: rest) s).andThen fun v _ t =>
      if statusDone v then .finished v rest t else waitDone rest t

/-! ### Results -/

/-- The type of a command's result, 30_encoding.md R77. -/
def resultType : Instr → OperandType
  | .utf8enc => .bytes
  | .md5 _ => .bytes
  | .sha1 _ => .bytes
  | .hmacsha1 _ _ => .bytes
  | .tohex => .text
  | .fromhex => .bytes
  | .tobase64 => .text

/-- The type of the result in DST, R83: that of the command in CMD, which between commands is the last one completed, since a
write of CMD while a command is pending is ignored (10_state.md R28, 46_host_access.md R306, R308). A word that is no command has
left no element (60_exceptions.md R226). What this is while a command is pending: log 19. -/
def State.resultType (s : State) : OperandType :=
  match decode s.cmd with
  | .ok i => Sys2Proof.Machine.resultType i
  | .error _ => .bytes

/-- The host reads DST_LEN, then the bytes of that many elements of DST, R83 and 46_host_access.md R311: the length it read and
the bytes. -/
def readResult (ty : OperandType) (schedule : Schedule) (s : State) : ProgramOutcome (Word × List Byte) :=
  (readRegister .dstLen schedule s).andThen fun len schedule t =>
    (readBytesOf .dst (bytesOf ty len.toNat) schedule t).andThen fun b schedule u => .finished (len, b) schedule u

/-- `SRC <- DST` or `KEY <- DST`, R83: the host reads the result, writes its bytes to the buffer and writes the length it read to
the buffer's length register. -/
def copyResult (target : Target) (schedule : Schedule) (s : State) : ProgramOutcome Unit :=
  (readResult s.resultType schedule s).andThen fun r => accesses (putBytes target r.2 r.1)

/-! ### Programs -/

/-- A line of a host program, R83. `action` is a primitive access written out, such as `WriteReg(SRC_LEN, 0)`. -/
inductive Line where
  | bytes (target : Target) (b : List Byte)
  | text (target : Target) (t : String)
  | units (target : Target) (t : List CodeUnit)
  | copyDst (target : Target)
  | command (i : Instr)
  | wait
  | action (a : HostAction)
  deriving DecidableEq, Repr

/-- One line, R83. -/
def Line.run : Line → Schedule → State → ProgramOutcome Unit
  | .bytes target b => accesses (loadBytes target b)
  | .text target t => accesses (loadText target t)
  | .units target t => accesses (loadUnits target t)
  | .copyDst target => copyResult target
  | .command i => accesses [issueAction i]
  | .wait => fun schedule s => (waitDone schedule s).andThen fun _ schedule t => .finished () schedule t
  | .action a => accesses [a]

/-- A host program, line by line, R83. -/
def runProgram : List Line → Schedule → State → ProgramOutcome Unit
  | [], schedule, s => .finished () schedule s
  | l :: rest, schedule, s => (l.run schedule s).andThen fun _ => runProgram rest

/-! ### Pseudo-instructions -/

/-- The pseudo-instructions, R84. -/
inductive Pseudo where
  | md5hex (tm : OperandType)
  | sha1hex (tm : OperandType)
  | hmacsha1hex (tm tk : OperandType)
  | hmacsha1b64 (tm tk : OperandType)
  deriving DecidableEq, Repr

/-- A hash command, its digest copied to SRC, then a codec command on it. -/
def hashThenCodec (hash codec : Instr) : List Line := [.command hash, .wait, .copyDst .src, .command codec, .wait]

/-- The expansion of a pseudo-instruction, R84: `MD5.x; WAIT; SRC <- DST; TOHEX; WAIT` and so on. -/
def Pseudo.lines : Pseudo → List Line
  | .md5hex tm => hashThenCodec (.md5 tm) .tohex
  | .sha1hex tm => hashThenCodec (.sha1 tm) .tohex
  | .hmacsha1hex tm tk => hashThenCodec (.hmacsha1 tm tk) .tohex
  | .hmacsha1b64 tm tk => hashThenCodec (.hmacsha1 tm tk) .tobase64

/-- A pseudo-instruction run. -/
def runPseudo (p : Pseudo) (schedule : Schedule) (s : State) : ProgramOutcome Unit :=
  runProgram p.lines schedule s

/-! ### Function calls -/

/-- The functions of the source document with their arguments, 00_scope.md R3. A message or key is a byte sequence or a text,
which `Result` is the type of. -/
inductive Call where
  | encode (t : List CodeUnit)
  | md5 (m : Result)
  | sha1 (m : Result)
  | hmacSha1 (m k : Result)
  | toHex (b : List Byte)
  | fromHex (t : List CodeUnit)
  | toBase64 (b : List Byte)
  deriving DecidableEq, Repr

/-- The command that computes the function, 00_scope.md R3, with its type bits as the arguments are (30_encoding.md R77). -/
def Call.command : Call → Instr
  | .encode _ => .utf8enc
  | .md5 m => .md5 m.type
  | .sha1 m => .sha1 m.type
  | .hmacSha1 m k => .hmacsha1 m.type k.type
  | .toHex _ => .tohex
  | .fromHex _ => .fromhex
  | .toBase64 _ => .tobase64

/-- An argument written to a buffer, its element count to the length register, 46_host_access.md R311. -/
def loadArgument (target : Target) : Result → List HostAction
  | .bytes b => loadBytes target b
  | .text t => loadUnits target t

/-- The arguments written, 46_host_access.md R311: to SRC and, for `hmacSha1`, the key to KEY. -/
def Call.operands : Call → List HostAction
  | .encode t => loadArgument .src (.text t)
  | .md5 m => loadArgument .src m
  | .sha1 m => loadArgument .src m
  | .hmacSha1 m k => loadArgument .src m ++ loadArgument .key k
  | .toHex b => loadArgument .src (.bytes b)
  | .fromHex t => loadArgument .src (.text t)
  | .toBase64 b => loadArgument .src (.bytes b)

/-- The text a buffer image stands for, 20_memory.md R53: two bytes a code unit, low byte first. -/
def unitsOf : List Byte → List CodeUnit
  | lo :: hi :: rest => unitOf lo hi :: unitsOf rest
  | _ => []

/-- The elements a buffer image stands for, 20_memory.md R51. -/
def elementsOf (ty : OperandType) (b : List Byte) : Result :=
  match ty with
  | .bytes => .bytes b
  | .text => .text (unitsOf b)

/-- The end of a call, 46_host_access.md R311, `status` being the STATUS value that said DONE: if `ERR != 0` the call failed with
that error and returns nothing; otherwise the host reads DST_LEN and that many elements of DST, which are the value. -/
def finishCall (ty : OperandType) (status : Word) (schedule : Schedule) (s : State) :
    ProgramOutcome (Except (BitVec 4) Result) :=
  if statusErr status ≠ 0 then .finished (.error (statusErr status)) schedule s
  else (readResult ty schedule s).andThen fun r schedule t => .finished (.ok (elementsOf ty r.2)) schedule t

/-- `y = f(x)` as a host sequence, 46_host_access.md R311: write the arguments, write CMD, read STATUS until `DONE = 1`, end the
call with the error's code or with the value. Calls on one instance do not overlap: one is a whole run. -/
def Call.run (c : Call) (schedule : Schedule) (s : State) : ProgramOutcome (Except (BitVec 4) Result) :=
  (accesses (c.operands ++ [issueAction c.command]) schedule s).andThen fun _ schedule t =>
    (waitDone schedule t).andThen (finishCall (resultType c.command))

end Sys2Proof.Machine
end

