-- ==== Sys2Proof/Safety.lean ====
section
/-! DEFINITION. The terms claims are stated in: what a buffer holds, which operands a command finds, the invariant
of the machine, and a safe run. -/

namespace Sys2Proof.Machine

/-- The buffer holds these bytes from address 0 on, 20_memory.md R51. -/
def State.holds (s : State) (space : Space) (b : List Byte) : Prop :=
  ∀ k, k < b.length → (s.buf space).read k = b[k]?

/-- Every byte of the buffer below address `n` has been written since reset. -/
def State.written (s : State) (space : Space) (n : Nat) : Prop :=
  ∀ a, a < n → (s.buf space).read a ≠ none

/-- The buffer holds a text of `n` code units, two bytes a unit, low byte first, 20_memory.md R51 and R53. -/
def State.holdsText (s : State) (space : Space) (n : Nat) (t : List CodeUnit) : Prop :=
  t.length = n ∧ s.holds space (textImage t)

/-- The buffer holds a byte sequence of `n` elements, 20_memory.md R51. -/
def State.holdsBytes (s : State) (space : Space) (n : Nat) (b : List Byte) : Prop :=
  b.length = n ∧ s.holds space b

/-- The operand of `n` elements and type `ty` in a buffer stands for the byte sequence `m`, 40_utf8_encoder.md R106: the
bytes themselves, or the UTF-8 bytes of the text. -/
def State.operandIs (s : State) (space : Space) (n : Nat) (m : List Byte) : OperandType → Prop
  | .bytes => s.holdsBytes space n m
  | .text => ∃ t, s.holdsText space n t ∧ utf8Encode t = .ok m

/-- The type of the source operand of a command, 30_encoding.md R77. -/
def srcType : Instr → OperandType
  | .utf8enc => .text
  | .md5 tm => tm
  | .sha1 tm => tm
  | .hmacsha1 tm _ => tm
  | .tohex => .bytes
  | .fromhex => .text
  | .tobase64 => .bytes

/-- The type of the key operand of a command that has one, 30_encoding.md R77. -/
def keyType : Instr → Option OperandType
  | .utf8enc => none
  | .md5 _ => none
  | .sha1 _ => none
  | .hmacsha1 _ tk => some tk
  | .tohex => none
  | .fromhex => none
  | .tobase64 => none

/-- The source operand fits SRC, 20_memory.md R62. -/
def srcFits (i : Instr) (s : State) : Prop := bytesOf (srcType i) s.srcLen.toNat ≤ s.cfg.srcCap

/-- The key operand, where the command has one, fits KEY, 20_memory.md R62. -/
def keyFits (i : Instr) (s : State) : Prop :=
  ∀ tk, keyType i = some tk → bytesOf tk s.keyLen.toNat ≤ s.cfg.keyCap

/-- What the host owes: "Every operand byte the command will read must have been written since reset",
70_reset_and_hazards.md R253. -/
def operandsWritten (i : Instr) (s : State) : Prop :=
  s.written .src (bytesOf (srcType i) s.srcLen.toNat) ∧
    ∀ tk, keyType i = some tk → s.written .key (bytesOf tk s.keyLen.toNat)

/-- The bytes the source operand of a command stands for: for FROMHEX the bytes its text parses to (44_hex_codec.md R194),
for every other command the operand fetch (40_utf8_encoder.md R106). -/
def sourceIs (i : Instr) (s : State) (m : List Byte) : Prop :=
  match i with
  | .utf8enc => s.operandIs .src s.srcLen.toNat m .text
  | .md5 tm => s.operandIs .src s.srcLen.toNat m tm
  | .sha1 tm => s.operandIs .src s.srcLen.toNat m tm
  | .hmacsha1 tm _ => s.operandIs .src s.srcLen.toNat m tm
  | .tohex => s.operandIs .src s.srcLen.toNat m .bytes
  | .fromhex => ∃ t, s.holdsText .src s.srcLen.toNat t ∧ fromHex t = .ok m
  | .tobase64 => s.operandIs .src s.srcLen.toNat m .bytes

/-- The source operand is a text with a bad element: malformed hex for FROMHEX, an unpaired surrogate for a text that goes
through the UTF-8 encoder, 60_exceptions.md R221. -/
def sourceBad (i : Instr) (s : State) : Prop :=
  srcType i = .text ∧ ∃ t, s.holdsText .src s.srcLen.toNat t ∧
    (if i = .fromhex then fromHex t = .error .encoding else utf8Encode t = .error .encoding)

/-- The bytes the key operand of a command stands for, where it has one. -/
def keyIs (i : Instr) (s : State) (k : List Byte) : Prop :=
  ∀ tk, keyType i = some tk → s.operandIs .key s.keyLen.toNat k tk

/-- The key operand is a text with an unpaired surrogate, 60_exceptions.md R221. -/
def keyBad (i : Instr) (s : State) : Prop :=
  keyType i = some .text ∧ ∃ t, s.holdsText .key s.keyLen.toNat t ∧ utf8Encode t = .error .encoding

/-- The result a command computes from the bytes of its operands, 46_host_access.md R310. -/
def resultOf (i : Instr) (m k : List Byte) : Result :=
  match i with
  | .utf8enc => .bytes m
  | .md5 _ => .bytes (md5 m)
  | .sha1 _ => .bytes (sha1 m)
  | .hmacsha1 _ _ => .bytes (hmacSha1 m k)
  | .tohex => .text (toHex m)
  | .fromhex => .bytes m
  | .tobase64 => .text (toBase64 m)

/-- What every completion leaves unchanged, 46_host_access.md R307, and the sequencer idle after it. -/
structure SameAround (s t : State) : Prop where
  cfg : t.cfg = s.cfg
  cmd : t.cmd = s.cmd
  srcLen : t.srcLen = s.srcLen
  keyLen : t.keyLen = s.keyLen
  src : t.src = s.src
  key : t.key = s.key
  turns : t.turns = s.turns
  replies : t.replies = s.replies
  resets : t.resets = s.resets
  idle : t.work.phase = .idle ∧ t.work.stage = none

/-- `t` is `s` after a successful completion whose result has `count` elements and occupies the bytes `image` of DST,
46_host_access.md R307. -/
structure SuccessOf (s t : State) (image : List Byte) (count : Nat) : Prop where
  status : t.status = 0x00000002
  dstLen : t.dstLen = BitVec.ofNat 32 count
  stored : t.holds .dst image
  beyond : ∀ a, image.length ≤ a → t.dst.read a = s.dst.read a
  around : SameAround s t

/-- `t` is `s` after a completion that ended in the error with this code, 60_exceptions.md R226: `STATUS` is
`0x00000002 + 16 * code`, `DST_LEN` 0, no byte of DST changed. -/
structure FailureOf (s t : State) (code : Nat) : Prop where
  status : t.status = BitVec.ofNat 32 (2 + 16 * code)
  dstLen : t.dstLen = 0
  dst : t.dst = s.dst
  around : SameAround s t

/-- The state the host can see of the engine: the five control registers and the three buffers, 10_state.md R21. -/
structure Visible where
  cmd : Word
  status : Word
  srcLen : Word
  keyLen : Word
  dstLen : Word
  src : Memory
  key : Memory
  dst : Memory
  deriving DecidableEq, Repr

/-- The host-visible part of a state. -/
def State.visible (s : State) : Visible :=
  ⟨s.cmd, s.status, s.srcLen, s.keyLen, s.dstLen, s.src, s.key, s.dst⟩

/-- Everything a command's result may depend on, 46_host_access.md R310: its two length registers, SRC and KEY, and the
capacities of the range check (00_scope.md R10). (The command word is the instruction itself.) -/
def SameOperands (s t : State) : Prop :=
  s.srcLen = t.srcLen ∧ s.keyLen = t.keyLen ∧ s.src = t.src ∧ s.key = t.key ∧
    s.cfg.srcCap = t.cfg.srcCap ∧ s.cfg.keyCap = t.cfg.keyCap ∧ s.cfg.dstCap = t.cfg.dstCap

/-- The invariant of the machine, over all its states and not only the reachable ones. -/
structure State.Inv (s : State) : Prop where
  /-- the capacities are legal, 00_scope.md R10 -/
  capsLegal : s.cfg.legal
  /-- STATUS holds one of its legal values, 10_state.md R24 -/
  statusLegal : s.status ∈ legalStatuses
  /-- the buffers are in canonical form -/
  wf : ∀ space, (s.buf space).wf
  /-- no buffer holds a byte at an address that does not exist, 20_memory.md R50 -/
  inside : ∀ space, ∀ p ∈ s.buf space, p.1 < s.cfg.cap space
  /-- DST_LEN bytes fit DST, also while a command is pending -/
  resultFits : s.dstLen.toNat ≤ s.cfg.dstCap
  /-- the first DST_LEN bytes of DST have been written, also while a command is pending -/
  resultWritten : s.written .dst s.dstLen.toNat
  /-- between commands the whole result fits DST, two bytes a code unit for a text, 20_memory.md R51 and R62 -/
  imageFits : s.busy = false → bytesOf s.resultType s.dstLen.toNat ≤ s.cfg.dstCap
  /-- between commands every byte of the result is in DST, 10_state.md R27 and 20_memory.md R51 -/
  imageWritten : s.busy = false → s.written .dst (bytesOf s.resultType s.dstLen.toNat)
  /-- DST_LEN "is 0 after a command that ended in an error", 10_state.md R27 -/
  failedEmpty : statusErr s.status ≠ 0 → s.dstLen = 0
  /-- STATUS is 0, "idle after reset" (10_state.md R24), only with CMD 0 and DST_LEN 0 -/
  freshIdle : s.status = 0 → s.cmd = 0 ∧ s.dstLen = 0
  /-- the sequencer is idle between steps, 10_state.md R33 and R40 -/
  sequencerIdle : s.work.phase = .idle ∧ s.work.stage = none

/-- A safe run of `k` steps: none of them faults or is refused. -/
def SafeRun (k : Nat) (s : State) : Prop := ∃ t, Sys2Proof.core.run k s = .next t

end Sys2Proof.Machine
end

