-- ==== Sys2Proof/Certificates/Slice0/Obligations.lean ====
section
/-! DEFINITION. The statements for the provers. Each docstring names the rules of spec/ a statement formalises. -/

open Sys2Proof Sys2Proof.Machine

/-! ### Command words -/

/-- Decoding and encoding agree on all 2^32 words and all instructions: a word decodes to `i` exactly when it is the word of
`i`. 30_encoding.md R75 to R79. -/
def Obligations.DecodeEncodeAgree : Prop :=
  ∀ (w : Word) (i : Instr), decode w = .ok i ↔ encode i = w

/-- 30_encoding.md R78: the legal command words are the twelve listed. -/
def Obligations.LegalWordsAreTheTwelve : Prop :=
  ∀ w : Word, (∃ i, decode w = .ok i) ↔
    w ∈ [(0x00000001 : Word), 0x00000002, 0x00000102, 0x00000003, 0x00000103, 0x00000004, 0x00000104, 0x00000204,
      0x00000304, 0x00000005, 0x00000006, 0x00000007]

/-- 30_encoding.md R81: a legal word selects exactly the row of its operation in the opcode table, and a word that selects no
row is illegal. -/
def Obligations.TableRowSelectsTheCommand : Prop :=
  (∀ (w : Word) (i : Instr), decode w = .ok i →
    (opcodeTable.filter fun row => w &&& row.mask == row.pattern).map (·.mnemonic) = [i.mnemonic]) ∧
  ∀ w : Word, (∀ row ∈ opcodeTable, (w &&& row.mask) ≠ row.pattern) → ∀ i, decode w ≠ .ok i

/-- Words written out bit by bit from the format of 30_encoding.md R75 and the codes of R76: bits 31:10, TK, TM, OP. -/
def Obligations.WrittenOutWordsDecode : Prop :=
  decodeTableWord 32 0b0000000000000000000000_0_0_00000001 = some .utf8enc ∧
  decodeTableWord 32 0b0000000000000000000000_0_1_00000010 = some (.md5 .text) ∧
  decodeTableWord 32 0b0000000000000000000000_0_0_00000011 = some (.sha1 .bytes) ∧
  decodeTableWord 32 0b0000000000000000000000_0_1_00000100 = some (.hmacsha1 .text .bytes) ∧
  decodeTableWord 32 0b0000000000000000000000_1_0_00000100 = some (.hmacsha1 .bytes .text) ∧
  decodeTableWord 32 0b0000000000000000000000_0_0_00000101 = some .tohex ∧
  decodeTableWord 32 0b0000000000000000000000_0_0_00000110 = some .fromhex ∧
  decodeTableWord 32 0b0000000000000000000000_0_0_00000111 = some .tobase64 ∧
  decodeTableWord 32 0b0000000000000000000000_0_0_00001000 = none ∧
  decodeTableWord 32 0b0000000000000000000000_1_0_00000010 = none ∧
  decodeTableWord 32 0b0000000000000000000001_0_0_00000010 = none

/-! ### The step -/

/-- 46_host_access.md R307 and R310: when the engine moves while a command is pending, the step is the completion of the
decoded command. That the engine moves at an engine turn and when no turn is listed is the model's choice, log 1. -/
def Obligations.StepRunsTheDecodedCommand : Prop :=
  ∀ (s : State) (i : Instr), s.busy = true → decode s.cmd = .ok i →
    (s.turns = [] → step s = exec i s) ∧
    ∀ rest, s.turns = .engine :: rest → step s = exec i { s with turns := rest }

/-- The step after `withFetchWord` runs exactly the command whose word was placed (log 13). -/
def Obligations.PlacedWordIsRunNext : Prop :=
  ∀ (s : State) (i : Instr),
    step (s.withFetchWord 32 (encode i).toNat) = exec i { s with cmd := encode i, status := 0x00000001 }

/-- A pending word outside the twelve legal ones completes with ILLEGAL_CMD when the engine moves, whatever the operands and
the length registers hold: the cause is 60_exceptions.md R223, what the completion leaves is R226 and 46_host_access.md R307.
That the engine moves at an engine turn and when no turn is listed is the model's choice, log 1. -/
def Obligations.IllegalWordEndsWithIllegalCmd : Prop :=
  ∀ s : State, s.busy = true →
    s.cmd ∉ [(0x00000001 : Word), 0x00000002, 0x00000102, 0x00000003, 0x00000103, 0x00000004, 0x00000104, 0x00000204,
      0x00000304, 0x00000005, 0x00000006, 0x00000007] →
    (s.turns = [] → ∃ t, step s = .next t ∧ FailureOf s t 3) ∧
    ∀ rest, s.turns = .engine :: rest → ∃ t, step s = .next t ∧ FailureOf { s with turns := rest } t 3

/-- 60_exceptions.md R237: between commands an engine turn changes nothing. That the machine then takes a step at all is the
model's choice, log 2. -/
def Obligations.IdleEngineHoldsItsState : Prop :=
  ∀ s : State, s.busy = false →
    (s.turns = [] → step s = .next s) ∧ ∀ rest, s.turns = .engine :: rest → step s = .next { s with turns := rest }

/-- Nothing but the two stops of the model stops a step: a fault comes only from a host access at an address that does not
exist (46_host_access.md R300, log 11), a refusal only from an operand byte that holds no value (10_state.md R40, log 7). -/
def Obligations.StepStopsOnlyByTheTwoNames : Prop :=
  ∀ s : State,
    (∀ f, step s = .fault f → ∃ space addr rest, f = .addressOutsideBuffer space addr ∧ s.cfg.cap space ≤ addr ∧
      (s.turns = .host (.readBuf space addr) :: rest ∨ ∃ v, s.turns = .host (.writeBuf space addr v) :: rest)) ∧
    ∀ r, step s = .refused r → ∃ space addr, r = .unwrittenOperandByte space addr ∧
      (s.buf space).read addr = none ∧ addr < s.cfg.cap space ∧ s.busy = true

/-- A step goes on wherever the host keeps to addresses that exist and has written the operands of the pending command
(70_reset_and_hazards.md R253). -/
def Obligations.CorrectHostNeverStops : Prop :=
  ∀ s : State, (∀ turn ∈ s.turns, turn.wellFormed s.cfg = true) →
    (s.busy = true → ∀ i, decode s.cmd = .ok i → operandsWritten i s) → ∃ t, step s = .next t

/-- 46_host_access.md R300, log 11: a buffer access outside the buffer faults, busy or not. -/
def Obligations.OutsideAddressFaults : Prop :=
  ∀ (s : State) (space : Space) (addr : Nat) (v : Byte), s.cfg.cap space ≤ addr →
    hostAccess (.readBuf space addr) s = .fault (.addressOutsideBuffer space addr) ∧
    hostAccess (.writeBuf space addr v) s = .fault (.addressOutsideBuffer space addr)

/-! ### Host accesses -/

/-- 46_host_access.md R306: the issue of a command, legal or not. -/
def Obligations.CmdWriteIssues : Prop :=
  ∀ (s : State) (v : Word) (rest : List Turn), s.busy = false → s.turns = .host (.writeReg .cmd v) :: rest →
    step s = .next { s with turns := rest, cmd := v, status := 0x00000001 } ∧
    statusBusy 0x00000001 = true ∧ statusDone 0x00000001 = false ∧ statusErr 0x00000001 = 0

/-- 46_host_access.md R301 and R302 and R303: register accesses while no command is pending, and the two read-only registers
at any time. That a read's answer goes to the head of `replies` is the model's choice, log 10. -/
def Obligations.RegisterAccesses : Prop :=
  ∀ s : State,
    (s.busy = false →
      hostAccess (.readReg .cmd) s = .next { s with replies := .reg .cmd s.cmd :: s.replies } ∧
      hostAccess (.readReg .srcLen) s = .next { s with replies := .reg .srcLen s.srcLen :: s.replies } ∧
      hostAccess (.readReg .keyLen) s = .next { s with replies := .reg .keyLen s.keyLen :: s.replies } ∧
      hostAccess (.readReg .dstLen) s = .next { s with replies := .reg .dstLen s.dstLen :: s.replies }) ∧
    hostAccess (.readReg .status) s = .next { s with replies := .reg .status s.status :: s.replies } ∧
    (s.busy = false → ∀ v,
      hostAccess (.writeReg .srcLen v) s = .next { s with srcLen := v } ∧
      hostAccess (.writeReg .keyLen v) s = .next { s with keyLen := v }) ∧
    ∀ v, hostAccess (.writeReg .status v) s = .next s ∧ hostAccess (.writeReg .dstLen v) s = .next s

/-- 46_host_access.md R304: a buffer write while no command is pending sets that byte and changes nothing else. -/
def Obligations.BufferWriteSetsOneByte : Prop :=
  ∀ (s : State) (space : Space) (addr : Nat) (v : Byte), s.busy = false → addr < s.cfg.cap space →
    ∃ t, hostAccess (.writeBuf space addr v) s = .next t ∧
      (∀ sp a, (t.buf sp).read a = if sp = space ∧ a = addr then some v else (s.buf sp).read a) ∧
      t.cfg = s.cfg ∧ t.cmd = s.cmd ∧ t.status = s.status ∧ t.srcLen = s.srcLen ∧ t.keyLen = s.keyLen ∧
      t.dstLen = s.dstLen ∧ t.work = s.work ∧ t.turns = s.turns ∧ t.replies = s.replies ∧ t.draws = s.draws ∧
      t.resets = s.resets

/-- 46_host_access.md R305: a buffer read while no command is pending returns the byte and changes nothing; a byte nothing has
written since reset reads as a free value, the same until the next reset. That value's form is the model's choice, log 8, and
so is that the answer goes to the head of `replies`, log 10. -/
def Obligations.BufferReadReturnsTheByte : Prop :=
  ∀ (s : State) (space : Space) (addr : Nat), s.busy = false → addr < s.cfg.cap space →
    (∀ v, (s.buf space).read addr = some v →
      hostAccess (.readBuf space addr) s = .next { s with replies := .buf space addr v :: s.replies }) ∧
    ((s.buf space).read addr = none →
      hostAccess (.readBuf space addr) s =
        .next { s with replies := .buf space addr (Config.unwrittenByte s.resets space addr) :: s.replies })

/-- 46_host_access.md R308: host actions while a command is pending. Writes are ignored, STATUS reads 1 (in the states of the
invariant, where STATUS is legal), the other registers read as they stand, DST_LEN and the buffers read as a free value. That
this value is the draw numbered `draws`, which then goes up by one, is the model's choice, log 9, and so is that an answer goes
to the head of `replies`, log 10. -/
def Obligations.BusyHostActions : Prop :=
  ∀ s : State, s.busy = true →
    (s.Inv → s.status = 0x00000001) ∧
    hostAccess (.readReg .status) s = .next { s with replies := .reg .status s.status :: s.replies } ∧
    (∀ r v, hostAccess (.writeReg r v) s = .next s) ∧
    (∀ space addr v, addr < s.cfg.cap space → hostAccess (.writeBuf space addr v) s = .next s) ∧
    hostAccess (.readReg .cmd) s = .next { s with replies := .reg .cmd s.cmd :: s.replies } ∧
    hostAccess (.readReg .srcLen) s = .next { s with replies := .reg .srcLen s.srcLen :: s.replies } ∧
    hostAccess (.readReg .keyLen) s = .next { s with replies := .reg .keyLen s.keyLen :: s.replies } ∧
    hostAccess (.readReg .dstLen) s =
      .next { s with replies := .reg .dstLen (Config.busyReadWord s.draws) :: s.replies, draws := s.draws + 1 } ∧
    ∀ space addr, addr < s.cfg.cap space → hostAccess (.readBuf space addr) s =
      .next { s with replies := .buf space addr (Config.busyReadByte s.draws) :: s.replies, draws := s.draws + 1 }

/-- 10_state.md R28 and 20_memory.md R65: whatever the host does between issue and completion, the command completes with the
result it would have had at once. `hs` are the host's accesses in between. That the order of the agents stands in the list
`turns` is the model's choice, log 1. -/
def Obligations.HostCannotDisturbAPendingCommand : Prop :=
  ∀ (hs : List HostAction) (s t : State) (rest : List Turn), s.busy = true →
    (∀ a ∈ hs, a.wellFormed s.cfg = true) → s.turns = hs.map Turn.host ++ .engine :: rest →
    s.completePending = .next t →
    ∃ u, Sys2Proof.core.run (hs.length + 1) s = .next u ∧ u.visible = t.visible ∧ u.turns = rest

/-! ### Reset -/

/-- The state after reset, 10_state.md R40: the five registers 0, no buffer byte holding a value, the sequencer idle. (The zero
of the internal registers is the model's choice, log 5, and not stated.) -/
def Obligations.ResetState : Prop :=
  State.reset.cmd = 0 ∧ State.reset.status = 0 ∧ State.reset.srcLen = 0 ∧ State.reset.keyLen = 0 ∧
  State.reset.dstLen = 0 ∧ (∀ space addr, (State.reset.buf space).read addr = none) ∧
  State.reset.work.phase = .idle ∧ State.reset.busy = false

/-- 70_reset_and_hazards.md R250 and R251: the reset event, from any state, also with a command pending. The parameters stay,
and so do the model's own turns and replies (log 12). -/
def Obligations.ResetEventLeavesResetState : Prop :=
  ∀ (s : State) (rest : List Turn), s.turns = .reset :: rest →
    ∃ t, step s = .next t ∧ t.cmd = 0 ∧ t.status = 0 ∧ t.srcLen = 0 ∧ t.keyLen = 0 ∧ t.dstLen = 0 ∧
      (∀ space addr, (t.buf space).read addr = none) ∧ t.work.phase = .idle ∧ t.work.stage = none ∧ t.busy = false ∧
      t.cfg = s.cfg ∧ t.turns = rest ∧ t.replies = s.replies

/-- The invariant holds right after reset. -/
def Obligations.InvariantAtReset : Prop := State.reset.Inv

/-- Every step keeps the invariant: the capacities legal (00_scope.md R10), STATUS legal (10_state.md R24), the buffers canonical
and inside their capacities (20_memory.md R50), the first DST_LEN bytes of DST inside it and written at any time, and between
commands the whole result, two bytes a code unit for a text (R27, 20_memory.md R51, R62), DST_LEN 0 after an error, STATUS 0 only
with CMD 0 and DST_LEN 0, the sequencer idle between steps. -/
def Obligations.StepKeepsTheInvariant : Prop :=
  ∀ s t : State, s.Inv → step s = .next t → t.Inv

/-! ### What the commands do -/

/-- 40_utf8_encoder.md R109: UTF8ENC on a well-formed text whose encoding fits DST. -/
def Obligations.Utf8encStoresTheEncoding : Prop :=
  ∀ (s : State) (t : List CodeUnit) (b : List Byte), 2 * s.srcLen.toNat ≤ s.cfg.srcCap →
    s.holdsText .src s.srcLen.toNat t → utf8Encode t = .ok b → b.length ≤ s.cfg.dstCap →
    ∃ u, exec .utf8enc s = .next u ∧ SuccessOf s u b b.length

/-- 41_md5.md R134: MD5.B and MD5.T on an operand that fits. -/
def Obligations.Md5StoresTheDigest : Prop :=
  (∀ (s : State) (m : List Byte), s.srcLen.toNat ≤ s.cfg.srcCap → s.holdsBytes .src s.srcLen.toNat m →
    16 ≤ s.cfg.dstCap → ∃ u, exec (.md5 .bytes) s = .next u ∧ SuccessOf s u (md5 m) 16) ∧
  ∀ (s : State) (t : List CodeUnit) (m : List Byte), 2 * s.srcLen.toNat ≤ s.cfg.srcCap →
    s.holdsText .src s.srcLen.toNat t → utf8Encode t = .ok m → 16 ≤ s.cfg.dstCap →
    ∃ u, exec (.md5 .text) s = .next u ∧ SuccessOf s u (md5 m) 16

/-- 42_sha1.md R161: SHA1.B and SHA1.T on an operand that fits. -/
def Obligations.Sha1StoresTheDigest : Prop :=
  (∀ (s : State) (m : List Byte), s.srcLen.toNat ≤ s.cfg.srcCap → s.holdsBytes .src s.srcLen.toNat m →
    20 ≤ s.cfg.dstCap → ∃ u, exec (.sha1 .bytes) s = .next u ∧ SuccessOf s u (sha1 m) 20) ∧
  ∀ (s : State) (t : List CodeUnit) (m : List Byte), 2 * s.srcLen.toNat ≤ s.cfg.srcCap →
    s.holdsText .src s.srcLen.toNat t → utf8Encode t = .ok m → 20 ≤ s.cfg.dstCap →
    ∃ u, exec (.sha1 .text) s = .next u ∧ SuccessOf s u (sha1 m) 20

/-- 43_hmac_sha1.md R181: HMACSHA1 in its four forms, message in SRC and key in KEY, a text operand taken as its UTF-8 bytes. -/
def Obligations.HmacStoresTheDigest : Prop :=
  ∀ (s : State) (tm tk : OperandType) (m k : List Byte), bytesOf tm s.srcLen.toNat ≤ s.cfg.srcCap →
    bytesOf tk s.keyLen.toNat ≤ s.cfg.keyCap → s.operandIs .src s.srcLen.toNat m tm →
    s.operandIs .key s.keyLen.toNat k tk → 20 ≤ s.cfg.dstCap →
    ∃ u, exec (.hmacsha1 tm tk) s = .next u ∧ SuccessOf s u (hmacSha1 m k) 20

/-- 44_hex_codec.md R192: TOHEX, two code units a byte, stored little-endian. -/
def Obligations.TohexStoresTheText : Prop :=
  ∀ (s : State) (b : List Byte), s.srcLen.toNat ≤ s.cfg.srcCap → s.holdsBytes .src s.srcLen.toNat b →
    4 * s.srcLen.toNat ≤ s.cfg.dstCap →
    ∃ u, exec .tohex s = .next u ∧ SuccessOf s u (textImage (toHex b)) (2 * s.srcLen.toNat)

/-- 44_hex_codec.md R196: FROMHEX on a well-formed text whose bytes fit DST. -/
def Obligations.FromhexStoresTheBytes : Prop :=
  ∀ (s : State) (t : List CodeUnit) (b : List Byte), 2 * s.srcLen.toNat ≤ s.cfg.srcCap →
    s.holdsText .src s.srcLen.toNat t → fromHex t = .ok b → s.srcLen.toNat / 2 ≤ s.cfg.dstCap →
    ∃ u, exec .fromhex s = .next u ∧ SuccessOf s u b (s.srcLen.toNat / 2)

/-- 45_base64_codec.md R209: TOBASE64, four code units for each group of three bytes, stored little-endian. -/
def Obligations.Tobase64StoresTheText : Prop :=
  ∀ (s : State) (b : List Byte), s.srcLen.toNat ≤ s.cfg.srcCap → s.holdsBytes .src s.srcLen.toNat b →
    8 * ((s.srcLen.toNat + 2) / 3) ≤ s.cfg.dstCap →
    ∃ u, exec .tobase64 s = .next u ∧ SuccessOf s u (textImage (toBase64 b)) (4 * ((s.srcLen.toNat + 2) / 3))

/-- 60_exceptions.md R227: the first cause that applies is reported. Illegal word; operand out of range; bad element of the
source, then of the key; result out of range. -/
def Obligations.ErrorsInPriorityOrder : Prop :=
  ∀ s : State,
    ((∀ i, decode s.cmd ≠ .ok i) → ∃ t, s.completePending = .next t ∧ FailureOf s t 3) ∧
    ∀ i, decode s.cmd = .ok i →
      ((¬srcFits i s ∨ ¬keyFits i s) → ∃ t, s.completePending = .next t ∧ FailureOf s t 4) ∧
      (srcFits i s → keyFits i s → sourceBad i s → ∃ t, s.completePending = .next t ∧ FailureOf s t 1) ∧
      (∀ m, srcFits i s → keyFits i s → sourceIs i s m → keyBad i s →
        ∃ t, s.completePending = .next t ∧ FailureOf s t 1) ∧
      ∀ m k, srcFits i s → keyFits i s → sourceIs i s m → keyIs i s k →
        s.cfg.dstCap < (resultOf i m k).image.length → ∃ t, s.completePending = .next t ∧ FailureOf s t 4

/-- 10_state.md R40, log 7: a legal command whose operands are in range and which reads a byte that nothing has written since
reset is refused, by the buffer's name: the source's byte first, the key's when the source is sound. -/
def Obligations.UnwrittenOperandIsRefused : Prop :=
  ∀ (s : State) (i : Instr), srcFits i s → keyFits i s →
    (¬s.written .src (bytesOf (srcType i) s.srcLen.toNat) →
      ∃ a, exec i s = .refused (.unwrittenOperandByte .src a) ∧ s.src.read a = none) ∧
    ∀ m tk, sourceIs i s m → keyType i = some tk → ¬s.written .key (bytesOf tk s.keyLen.toNat) →
      ∃ a, exec i s = .refused (.unwrittenOperandByte .key a) ∧ s.key.read a = none

/-- 20_memory.md R60 and 46_host_access.md R307: the frame of every command. CMD, SRC_LEN, KEY_LEN, SRC and KEY never change;
STATUS is one of the three completion values of a legal command; a success writes exactly the bytes of its result, a failure no
byte of DST. -/
def Obligations.CommandFrame : Prop :=
  ∀ (i : Instr) (s t : State), exec i s = .next t →
    SameAround s t ∧
    ((t.status = 0x00000002 ∧ ∃ r : Result, r.type = resultType i ∧ SuccessOf s t r.image r.count ∧
        r.image.length ≤ s.cfg.dstCap) ∨
      FailureOf s t 1 ∨ FailureOf s t 4)

/-- 60_exceptions.md R221, last sentence: these five never end with ENCODING. -/
def Obligations.ByteCommandsNeverEncodingError : Prop :=
  ∀ (i : Instr) (s t : State), i ∈ [.tohex, .tobase64, .md5 .bytes, .sha1 .bytes, .hmacsha1 .bytes .bytes] →
    exec i s = .next t → statusErr t.status ≠ 1

/-- 00_scope.md R17 and 46_host_access.md R310: a command's outcome depends on its operands and the capacities and on nothing
else. Two states that agree on those end in the same STATUS, DST_LEN and result bytes. -/
def Obligations.CommandsArePureFunctions : Prop :=
  ∀ (i : Instr) (s s' : State), SameOperands s s' →
    (∀ r, exec i s = .refused r ↔ exec i s' = .refused r) ∧
    ∀ t, exec i s = .next t → ∃ t', exec i s' = .next t' ∧ t'.status = t.status ∧ t'.dstLen = t.dstLen ∧
      ∀ a, a < bytesOf (resultType i) t.dstLen.toNat → t'.dst.read a = t.dst.read a

/-- 30_encoding.md R84, last sentence: a text-typed hash command equals UTF8ENC, a host copy of its result to SRC, and the
byte-typed hash command, where the encoded message fits DST and SRC. `s` runs UTF8ENC and ends in `u`; `s'` is any state whose
SRC and SRC_LEN hold that result. -/
def Obligations.TextHashEqualsEncodeThenHash : Prop :=
  ∀ (s u s' : State) (text bytes : Instr),
    (text = .md5 .text ∧ bytes = .md5 .bytes) ∨ (text = .sha1 .text ∧ bytes = .sha1 .bytes) →
    s.cfg.legal → exec .utf8enc s = .next u → u.status = 0x00000002 →
    s'.srcLen = u.dstLen → (∀ k, k < u.dstLen.toNat → s'.src.read k = u.dst.read k) →
    u.dstLen.toNat ≤ s'.cfg.srcCap → s'.cfg.dstCap = s.cfg.dstCap →
    ∃ v v', exec text s = .next v ∧ exec bytes s' = .next v' ∧ v'.status = v.status ∧ v'.dstLen = v.dstLen ∧
      ∀ a, a < v.dstLen.toNat → v'.dst.read a = v.dst.read a

/-- 10_state.md R38 and R39: what the internal working state held before a step reaches nothing outside it. -/
def Obligations.WorkingStateIsUnobservable : Prop :=
  ∀ (s : State) (wk : Work),
    (∀ i, exec i { s with work := wk } = exec i s) ∧
    ∀ t, step s = .next t → ∃ t', step { s with work := wk } = .next t' ∧ { t' with work := t.work } = t

/-- 00_scope.md R10: "No rule depends on the base addresses." -/
def Obligations.BaseAddressesDoNotMatter : Prop :=
  ∀ (s t : State) (rb sb kb db : Nat), step s = .next t →
    step { s with cfg := { s.cfg with regBase := rb, srcBase := sb, keyBase := kb, dstBase := db } } =
      .next { t with cfg := { t.cfg with regBase := rb, srcBase := sb, keyBase := kb, dstBase := db } }

/-! ### The buffers -/

/-- 20_memory.md R64: a read returns the latest write to that address, a write leaves every other address alone, and the
canonical form is kept, for writes of several bytes (00_scope.md R16). -/
def Obligations.BufferWritesReadBack : Prop :=
  ∀ (m : Memory) (addr : Nat) (b : List Byte) (a : Nat),
    (m.writeBytes addr b).read a = (if addr ≤ a ∧ a < addr + b.length then b[a - addr]? else m.read a) ∧
    (m.wf → (m.writeBytes addr b).wf)

/-- 40_utf8_encoder.md R106 and 20_memory.md R53: the operand fetch. -/
def Obligations.FetchReadsTheOperand : Prop :=
  ∀ (s : State) (space : Space) (n : Nat) (m : List Byte),
    (s.fetch space n .bytes = .ok m ↔ m.length = n ∧ ∀ k, k < n → (s.buf space).read k = m[k]?) ∧
    (s.fetch space n .text = .ok m ↔ ∃ t : List CodeUnit, t.length = n ∧ utf8Encode t = .ok m ∧
      ∀ k (h : k < t.length), (s.buf space).read (2 * k) = some (t[k].extractLsb' 0 8) ∧
        (s.buf space).read (2 * k + 1) = some (t[k].extractLsb' 8 8))

/-! ### The UTF-8 byte encoder -/

/-- 40_utf8_encoder.md R101 to R105: what a text encodes to, by its first code point. -/
def Obligations.Utf8EncodesByCodePoint : Prop :=
  utf8Encode [] = .ok [] ∧
  (∀ (u : CodeUnit) (t : List CodeUnit) (b : List Byte), utf8Encode t = .ok b →
    (u.toNat < 0x80 → utf8Encode (u :: t) = .ok (BitVec.ofNat 8 u.toNat :: b)) ∧
    (0x80 ≤ u.toNat → u.toNat < 0x800 → utf8Encode (u :: t) =
      .ok (BitVec.ofNat 8 (0xC0 + u.toNat / 64) :: BitVec.ofNat 8 (0x80 + u.toNat % 64) :: b)) ∧
    ((0x800 ≤ u.toNat ∧ u.toNat < 0xD800) ∨ 0xE000 ≤ u.toNat → utf8Encode (u :: t) =
      .ok (BitVec.ofNat 8 (0xE0 + u.toNat / 4096) :: BitVec.ofNat 8 (0x80 + u.toNat / 64 % 64) ::
        BitVec.ofNat 8 (0x80 + u.toNat % 64) :: b))) ∧
  (∀ (hi lo : CodeUnit) (t : List CodeUnit) (b : List Byte) (cp : Nat), utf8Encode t = .ok b →
    0xD800 ≤ hi.toNat → hi.toNat ≤ 0xDBFF → 0xDC00 ≤ lo.toNat → lo.toNat ≤ 0xDFFF →
    cp = 0x10000 + (hi.toNat - 0xD800) * 0x400 + (lo.toNat - 0xDC00) →
    utf8Encode (hi :: lo :: t) = .ok (BitVec.ofNat 8 (0xF0 + cp / 262144) :: BitVec.ofNat 8 (0x80 + cp / 4096 % 64) ::
      BitVec.ofNat 8 (0x80 + cp / 64 % 64) :: BitVec.ofNat 8 (0x80 + cp % 64) :: b)) ∧
  (∀ (u : CodeUnit) (t : List CodeUnit), utf8Encode t = .error .encoding → u.toNat < 0xD800 ∨ 0xE000 ≤ u.toNat →
    utf8Encode (u :: t) = .error .encoding) ∧
  (∀ (hi lo : CodeUnit) (t : List CodeUnit), utf8Encode t = .error .encoding →
    0xD800 ≤ hi.toNat → hi.toNat ≤ 0xDBFF → 0xDC00 ≤ lo.toNat → lo.toNat ≤ 0xDFFF →
    utf8Encode (hi :: lo :: t) = .error .encoding) ∧
  (∀ (u : CodeUnit) (t : List CodeUnit), 0xDC00 ≤ u.toNat → u.toNat ≤ 0xDFFF →
    utf8Encode (u :: t) = .error .encoding) ∧
  (∀ hi : CodeUnit, 0xD800 ≤ hi.toNat → hi.toNat ≤ 0xDBFF → utf8Encode [hi] = .error .encoding) ∧
  ∀ (hi v : CodeUnit) (t : List CodeUnit), 0xD800 ≤ hi.toNat → hi.toNat ≤ 0xDBFF →
    (v.toNat < 0xDC00 ∨ 0xDFFF < v.toNat) → utf8Encode (hi :: v :: t) = .error .encoding

/-- 40_utf8_encoder.md R107: the encoder is total, a monoid map on the texts it accepts, and the identity on values below
0x80. -/
def Obligations.Utf8EncodeIsAMonoidMap : Prop :=
  (∀ t, (∃ b, utf8Encode t = .ok b) ∨ utf8Encode t = .error .encoding) ∧
  (∀ (s t : List CodeUnit) (a b : List Byte), utf8Encode s = .ok a → utf8Encode t = .ok b →
    ¬((∃ x, s.getLast? = some x ∧ 0xD800 ≤ x.toNat ∧ x.toNat ≤ 0xDBFF) ∧
      ∃ y, t.head? = some y ∧ 0xDC00 ≤ y.toNat ∧ y.toNat ≤ 0xDFFF) →
    utf8Encode (s ++ t) = .ok (a ++ b)) ∧
  utf8Encode [] = .ok [] ∧
  ∀ t : List CodeUnit, (∀ u ∈ t, u.toNat < 0x80) → utf8Encode t = .ok (t.map fun u => BitVec.ofNat 8 u.toNat)

/-- 40_utf8_encoder.md R108: the output has at most three bytes for each code unit, far below 2^61 for any length the engine can
hold. -/
def Obligations.Utf8LengthBound : Prop :=
  ∀ (t : List CodeUnit) (b : List Byte), utf8Encode t = .ok b →
    b.length ≤ 3 * t.length ∧ (t.length ≤ 2 ^ 32 - 1 → b.length < 2 ^ 34)

/-- The encoder loses nothing: two texts with the same bytes are the same text. -/
def Obligations.Utf8EncodeIsInjective : Prop :=
  ∀ (s t : List CodeUnit) (b : List Byte), utf8Encode s = .ok b → utf8Encode t = .ok b → s = t

/-! ### The hash units -/

/-- 41_md5.md R120 and 42_sha1.md R150: the layout of the padded message, for every message the engine can form (R122). -/
def Obligations.PaddingLayout : Prop :=
  ∀ (m : List Byte) (order : ByteOrder), m.length < 2 ^ 61 → ∃ z : Nat, z ≤ 63 ∧ (m.length + 1 + z) % 64 = 56 ∧
    (pad m order).length = m.length + 1 + z + 8 ∧
    (∀ k, k < m.length → (pad m order)[k]? = m[k]?) ∧
    (pad m order)[m.length]? = some 0x80 ∧
    (∀ k, m.length < k → k < m.length + 1 + z → (pad m order)[k]? = some 0) ∧
    ∀ t, t < 8 → (pad m order)[m.length + 1 + z + t]? =
      some (BitVec.ofNat 8 (8 * m.length / 2 ^ (8 * (match order with | .le => t | .be => 7 - t))))

/-- 41_md5.md R121: padded length, number of blocks, the blocks, and the boundary cases. -/
def Obligations.PaddedBlockCount : Prop :=
  (∀ (m : List Byte) (order : ByteOrder),
    (pad m order).length = m.length + 1 + padZeros m.length + 8 ∧ (pad m order).length % 64 = 0 ∧ 0 < (pad m order).length ∧
    (blocks (pad m order)).length = (m.length + 8) / 64 + 1 ∧
    ∀ j, j < (m.length + 8) / 64 + 1 → (blocks (pad m order))[j]? = some (slice (pad m order) (64 * j) (64 * j + 64)) ∧
      (slice (pad m order) (64 * j) (64 * j + 64)).length = 64) ∧
  [0, 55, 56, 63, 64, 119, 120].map (fun n => (padZeros n, (n + 8) / 64 + 1)) =
    [(55, 1), (0, 1), (63, 2), (56, 2), (55, 2), (0, 2), (63, 3)]

/-- 42_sha1.md R152 and R153: the message schedule obeys its recurrence. -/
def Obligations.Sha1ScheduleRecurrence : Prop :=
  ∀ blk : List Byte, (sha1Schedule blk).length = 80 ∧
    (∀ q, q < 16 → (sha1Schedule blk).getD q 0 = be32 (slice blk (4 * q) (4 * q + 4))) ∧
    ∀ q, 16 ≤ q → q < 80 → (sha1Schedule blk).getD q 0 =
      rotl ((sha1Schedule blk).getD (q - 3) 0 ^^^ (sha1Schedule blk).getD (q - 8) 0 ^^^
        (sha1Schedule blk).getD (q - 14) 0 ^^^ (sha1Schedule blk).getD (q - 16) 0) 1

/-- 41_md5.md R126 and R128: message index and rotation amount of every round, as the table of R129 lists them. -/
def Obligations.Md5IndexAndRotationTables : Prop :=
  (List.range 64).map md5G =
    [0, 1, 2, 3, 4, 5, 6, 7, 8, 9, 10, 11, 12, 13, 14, 15, 1, 6, 11, 0, 5, 10, 15, 4, 9, 14, 3, 8, 13, 2, 7, 12,
      5, 8, 11, 14, 1, 4, 7, 10, 13, 0, 3, 6, 9, 12, 15, 2, 0, 7, 14, 5, 12, 3, 10, 1, 8, 15, 6, 13, 4, 11, 2, 9] ∧
  (List.range 64).map md5Shift =
    [7, 12, 17, 22, 7, 12, 17, 22, 7, 12, 17, 22, 7, 12, 17, 22, 5, 9, 14, 20, 5, 9, 14, 20, 5, 9, 14, 20, 5, 9, 14, 20,
      4, 11, 16, 23, 4, 11, 16, 23, 4, 11, 16, 23, 4, 11, 16, 23, 6, 10, 15, 21, 6, 10, 15, 21, 6, 10, 15, 21, 6, 10, 15, 21]

/-- 00_scope.md R14: rotation moves bit `j` to bit `j + n` modulo 32. -/
def Obligations.RotationMovesBits : Prop :=
  ∀ (x : Word) (n j : Nat), 1 ≤ n → n ≤ 31 → j < 32 → (rotl x n).getLsbD ((j + n) % 32) = x.getLsbD j

/-- 20_memory.md R54 and R55: a word and its four bytes, in each order, and no digest bit dropped. -/
def Obligations.WordBytesRoundTrip : Prop :=
  ∀ w : Word, le32 (toLE32 w) = w ∧ be32 (toBE32 w) = w ∧ toBE32 w = (toLE32 w).reverse

/-- DOC0's own vectors, 95_test_vectors.md V1 to V5. -/
def Obligations.SourceVectors : Prop :=
  md5 [] = [0xd4, 0x1d, 0x8c, 0xd9, 0x8f, 0x00, 0xb2, 0x04, 0xe9, 0x80, 0x09, 0x98, 0xec, 0xf8, 0x42, 0x7e] ∧
  md5 [0x61, 0x62, 0x63] =
    [0x90, 0x01, 0x50, 0x98, 0x3c, 0xd2, 0x4f, 0xb0, 0xd6, 0x96, 0x3f, 0x7d, 0x28, 0xe1, 0x7f, 0x72] ∧
  sha1 [] = [0xda, 0x39, 0xa3, 0xee, 0x5e, 0x6b, 0x4b, 0x0d, 0x32, 0x55, 0xbf, 0xef, 0x95, 0x60, 0x18, 0x90, 0xaf, 0xd8,
    0x07, 0x09] ∧
  sha1 [0x61, 0x62, 0x63] = [0xa9, 0x99, 0x3e, 0x36, 0x47, 0x06, 0x81, 0x6a, 0xba, 0x3e, 0x25, 0x71, 0x78, 0x50, 0xc2, 0x6c,
    0x9c, 0xd0, 0xd8, 0x9d] ∧
  hmacSha1 [0x54, 0x68, 0x65, 0x20, 0x71, 0x75, 0x69, 0x63, 0x6b, 0x20, 0x62, 0x72, 0x6f, 0x77, 0x6e, 0x20, 0x66, 0x6f, 0x78,
    0x20, 0x6a, 0x75, 0x6d, 0x70, 0x73, 0x20, 0x6f, 0x76, 0x65, 0x72, 0x20, 0x74, 0x68, 0x65, 0x20, 0x6c, 0x61, 0x7a, 0x79,
    0x20, 0x64, 0x6f, 0x67] [0x6b, 0x65, 0x79] =
    [0xde, 0x7c, 0x9b, 0x85, 0xb8, 0xb7, 0x8a, 0xa6, 0xbc, 0x8a, 0x7a, 0x36, 0xf7, 0x0a, 0x90, 0x70, 0x1c, 0x9d, 0xb4, 0xd9]

/-- 43_hmac_sha1.md R175: the normalised key has exactly 64 bytes, the hash of a longer key or the key itself, then zeros. -/
def Obligations.NormalisedKey : Prop :=
  ∀ k : List Byte, (normKey k).length = 64 ∧
    (64 < k.length → normKey k = sha1 k ++ List.replicate 44 0) ∧
    (k.length ≤ 64 → normKey k = k ++ List.replicate (64 - k.length) 0) ∧
    (k.length = 64 → normKey k = k)

/-- 43_hmac_sha1.md R180: a key longer than 64 bytes may be replaced by its raw 20-byte SHA-1 digest. -/
def Obligations.LongKeyEqualsItsDigest : Prop :=
  ∀ m k : List Byte, 64 < k.length → (sha1 k).length = 20 ∧ hmacSha1 m k = hmacSha1 m (sha1 k)

/-- 10_state.md R34 and R38, 43_hmac_sha1.md R179: the HMAC processor's three stages over the working state leave the digest of
R179 whatever that state held before. -/
def Obligations.HmacStagesComputeTheDigest : Prop :=
  ∀ (wk : Work) (m k : List Byte), sha1Digest (wk.hmacRun m k).h = hmacSha1 m k

/-! ### The codecs -/

/-- 44_hex_codec.md R195: the round trip of the hex codec, both directions. -/
def Obligations.HexRoundTrip : Prop :=
  (∀ b : List Byte, fromHex (toHex b) = .ok b) ∧
  ∀ (s : List CodeUnit) (b : List Byte), fromHex s = .ok b →
    toHex b = s.map fun u => if 0x41 ≤ u.toNat ∧ u.toNat ≤ 0x46 then BitVec.ofNat 16 (u.toNat + 0x20) else u

/-- 44_hex_codec.md R193: the value of a hex digit in either case, and no other code unit has one. -/
def Obligations.HexValueOfDigits : Prop :=
  (∀ u : CodeUnit, 0x30 ≤ u.toNat → u.toNat ≤ 0x39 → hexValue u = some (u.toNat - 0x30)) ∧
  (∀ u : CodeUnit, 0x61 ≤ u.toNat → u.toNat ≤ 0x66 → hexValue u = some (u.toNat - 0x61 + 10)) ∧
  (∀ u : CodeUnit, 0x41 ≤ u.toNat → u.toNat ≤ 0x46 → hexValue u = some (u.toNat - 0x41 + 10)) ∧
  (∀ u : CodeUnit, hexValue u = none ↔ ¬((0x30 ≤ u.toNat ∧ u.toNat ≤ 0x39) ∨ (0x61 ≤ u.toNat ∧ u.toNat ≤ 0x66) ∨
    (0x41 ≤ u.toNat ∧ u.toNat ≤ 0x46)))

/-- 44_hex_codec.md R194: when FromHex fails, and the bytes it gives when it does not. -/
def Obligations.FromHexAcceptsExactlyHexPairs : Prop :=
  ∀ s : List CodeUnit,
    (fromHex s = .error .encoding ↔ s.length % 2 = 1 ∨ ∃ u ∈ s, hexValue u = none) ∧
    (s.length % 2 = 0 → (∀ u ∈ s, hexValue u ≠ none) → ∃ b, fromHex s = .ok b ∧ b.length = s.length / 2 ∧
      ∀ q, q < s.length / 2 → ∃ hi lo, (s[2 * q]?.bind hexValue) = some hi ∧ (s[2 * q + 1]?.bind hexValue) = some lo ∧
        b[q]? = some (BitVec.ofNat 8 (16 * hi + lo)))

/-- 44_hex_codec.md R190 and R191: two lowercase digits for each byte, the high four bits first. -/
def Obligations.ToHexDigits : Prop :=
  ∀ b : List Byte, (toHex b).length = 2 * b.length ∧
    ∀ q (h : q < b.length),
      (toHex b)[2 * q]? = some (BitVec.ofNat 16
        (if b[q].toNat / 16 ≤ 9 then 0x30 + b[q].toNat / 16 else 0x61 + (b[q].toNat / 16 - 10))) ∧
      (toHex b)[2 * q + 1]? = some (BitVec.ofNat 16
        (if b[q].toNat % 16 ≤ 9 then 0x30 + b[q].toNat % 16 else 0x61 + (b[q].toNat % 16 - 10)))

/-- 45_base64_codec.md R206 to R208: the characters of every full group and of the final partial group. -/
def Obligations.Base64Groups : Prop :=
  ∀ b : List Byte, (toBase64 b).length = 4 * ((b.length + 2) / 3) ∧
    (∀ q, 3 * q + 2 < b.length → ∀ g, g = 65536 * (b.getD (3 * q) 0).toNat + 256 * (b.getD (3 * q + 1) 0).toNat
        + (b.getD (3 * q + 2) 0).toNat →
      (toBase64 b)[4 * q]? = some (b64Char (g / 262144)) ∧ (toBase64 b)[4 * q + 1]? = some (b64Char (g / 4096 % 64)) ∧
      (toBase64 b)[4 * q + 2]? = some (b64Char (g / 64 % 64)) ∧ (toBase64 b)[4 * q + 3]? = some (b64Char (g % 64))) ∧
    (∀ q, b.length = 3 * q + 1 → ∀ x, x = (b.getD (3 * q) 0).toNat →
      (toBase64 b).drop (4 * q) = [b64Char (x / 4), b64Char (16 * (x % 4)), 0x3D, 0x3D]) ∧
    ∀ q, b.length = 3 * q + 2 → ∀ x y, x = (b.getD (3 * q) 0).toNat → y = (b.getD (3 * q + 1) 0).toNat →
      (toBase64 b).drop (4 * q) = [b64Char (x / 4), b64Char (16 * (x % 4) + y / 16), b64Char (4 * (y % 16)), 0x3D]

/-- 45_base64_codec.md R205: the alphabet, position by position, and the pad character. -/
def Obligations.Base64Alphabet : Prop :=
  b64Pad = 0x3D ∧
  (List.range 64).map b64Char = ("ABCDEFGHIJKLMNOPQRSTUVWXYZabcdefghijklmnopqrstuvwxyz0123456789+/".toList.map fun c =>
    BitVec.ofNat 16 c.toNat)

/-- The Base64 encoder loses nothing: two byte sequences with the same text are the same. -/
def Obligations.ToBase64IsInjective : Prop :=
  ∀ a b : List Byte, toBase64 a = toBase64 b → a = b

/-! ### Host turns -/

/-- 46_host_access.md R300 and 20_memory.md R64: a step whose first turn is a host access is that access, one at a time and in
the order listed. The statements above about `hostAccess` reach a run through this one. That the order stands in the list `turns`
is the model's choice, log 1. -/
def Obligations.StepPerformsTheHostAccess : Prop :=
  ∀ (s : State) (a : HostAction) (rest : List Turn), s.turns = .host a :: rest →
    step s = hostAccess a { s with turns := rest }
end

