-- ==== Sys2Proof/Laws/Hash.lean ====
section
/-! SUPPORT. What the hash units' runs over the internal working state compute: the pure functions of the spec's pseudocode,
whatever the working state held before (spec/10_state.md R38). -/

namespace Sys2Proof.Machine

@[simp] theorem Sha1Regs.setMd5_md5 (r : Sha1Regs) (q : Md5Regs) : (r.setMd5 q).md5 = q := rfl

/-- One block of the MD5 unit advances the chaining value by the compression function, 41_md5.md R131. -/
theorem Work.md5Block_h (wk : Work) (blk : List Byte) : (wk.md5Block blk).h.md5 = md5Compress wk.h.md5 blk := rfl

/-- The blocks of a message, one after the other, 41_md5.md R133. -/
theorem Work.md5Block_foldl (bs : List (List Byte)) (wk : Work) :
    (bs.foldl Work.md5Block wk).h.md5 = bs.foldl md5Compress wk.h.md5 := by
  induction bs generalizing wk with
  | nil => rfl
  | cons b bs ih => rw [List.foldl_cons, List.foldl_cons, ih, Work.md5Block_h]

/-- The MD5 unit's run leaves the digest of R133 in H[0..3]. -/
theorem Work.md5Run_digest (wk : Work) (m : List Byte) : md5Digest (wk.md5Run m).h.md5 = md5 m := by
  rw [Work.md5Run, Work.md5Block_foldl]
  rfl

/-- One block of the SHA-1 unit advances the chaining value by the compression function, 42_sha1.md R158. -/
theorem Work.sha1Block_h (wk : Work) (blk : List Byte) : (wk.sha1Block blk).h = sha1Compress wk.h blk := rfl

/-- The blocks of a message, one after the other, 42_sha1.md R160. -/
theorem Work.sha1Block_foldl (bs : List (List Byte)) (wk : Work) :
    (bs.foldl Work.sha1Block wk).h = bs.foldl sha1Compress wk.h := by
  induction bs generalizing wk with
  | nil => rfl
  | cons b bs ih => rw [List.foldl_cons, List.foldl_cons, ih, Work.sha1Block_h]

/-- The SHA-1 unit's run leaves the digest of R160 in H[0..4]. -/
theorem Work.sha1Run_digest (wk : Work) (m : List Byte) : sha1Digest (wk.sha1Run m).h = sha1 m := by
  rw [Work.sha1Run, Work.sha1Block_foldl]
  rfl

@[simp] theorem Work.sha1Block_k0 (wk : Work) (blk : List Byte) : (wk.sha1Block blk).k0 = wk.k0 := by
  obtain ⟨h, r, w, b, n, j, i, phase, stage, k0, inner⟩ := wk
  show (Work.sha1Block _ blk).k0 = k0
  rfl
@[simp] theorem Work.sha1Block_inner (wk : Work) (blk : List Byte) : (wk.sha1Block blk).inner = wk.inner := by
  obtain ⟨h, r, w, b, n, j, i, phase, stage, k0, inner⟩ := wk
  show (Work.sha1Block _ blk).inner = inner
  rfl

/-- The SHA-1 unit's run does not touch the HMAC staging registers, 10_state.md R34. -/
theorem Work.sha1Block_staging (bs : List (List Byte)) (wk : Work) :
    (bs.foldl Work.sha1Block wk).k0 = wk.k0 ∧ (bs.foldl Work.sha1Block wk).inner = wk.inner := by
  induction bs generalizing wk with
  | nil => exact ⟨rfl, rfl⟩
  | cons b bs ih =>
    rw [List.foldl_cons]
    exact ⟨(ih _).1.trans (Work.sha1Block_k0 wk b), (ih _).2.trans (Work.sha1Block_inner wk b)⟩

@[simp] theorem Work.sha1Run_k0 (wk : Work) (m : List Byte) : (wk.sha1Run m).k0 = wk.k0 :=
  (Work.sha1Block_staging (blocks (pad m .be)) (wk.sha1Start m)).1.trans (by simp only [Work.sha1Start])

@[simp] theorem Work.sha1Run_inner (wk : Work) (m : List Byte) : (wk.sha1Run m).inner = wk.inner :=
  (Work.sha1Block_staging (blocks (pad m .be)) (wk.sha1Start m)).2.trans (by simp only [Work.sha1Start])

/-- A short list is filled up with copies of the fill value. -/
theorem padTo_eq_append {α : Type} (v : α) (n : Nat) (l : List α) (h : l.length ≤ n) :
    padTo v n l = l ++ List.replicate (n - l.length) v := by
  induction n generalizing l with
  | zero =>
    have : l = [] := List.length_eq_zero_iff.mp (by omega)
    subst this
    rfl
  | succ n ih =>
    cases l with
    | nil => rw [padTo, ih [] (by simp)]; simp [List.replicate_succ]
    | cons x xs =>
      rw [padTo, ih xs (by simpa using h)]
      simp

/-- What a register file loaded from a list that fits holds. -/
theorem vecOf_toList {α : Type} (v : α) (n : Nat) (l : List α) (h : l.length ≤ n) :
    (vecOf v n l).toList = l ++ List.replicate (n - l.length) v := by
  rw [← padTo_eq_append v n l h]
  rfl

@[simp] theorem toLE32_length (w : Word) : (toLE32 w).length = 4 := rfl
@[simp] theorem toBE32_length (w : Word) : (toBE32 w).length = 4 := rfl

/-- A SHA-1 digest has 20 bytes, 42_sha1.md R159. -/
@[simp] theorem sha1Digest_length (h : Sha1Regs) : (sha1Digest h).length = 20 := by simp [sha1Digest]

/-- An MD5 digest has 16 bytes, 41_md5.md R132. -/
@[simp] theorem md5Digest_length (h : Md5Regs) : (md5Digest h).length = 16 := by simp [md5Digest]

end Sys2Proof.Machine
end

