-- ==== Sys2Proof/Laws/Memory.lean ====
section
/-! SUPPORT. The laws of the buffers: read after write, the canonical form, and what a read of several bytes or of a text
answers. -/

namespace Sys2Proof.Machine

@[simp] theorem Memory.read_nil (a : Nat) : Memory.read [] a = none := rfl

theorem Memory.read_cons (p : Host.Cell) (m : Memory) (a : Nat) :
    Memory.read (p :: m) a = if p.1 = a then some p.2 else Memory.read m a := rfl

/-- A read finds nothing below every listed address. -/
theorem Memory.read_eq_none_of_lt (m : Memory) (a : Nat) (h : ∀ p ∈ m, a < p.1) : m.read a = none := by
  induction m with
  | nil => rfl
  | cons p rest ih =>
    have hp := h p (by simp)
    rw [Memory.read_cons, if_neg (by omega)]
    exact ih fun q hq => h q (by simp [hq])

/-- Read after write, at the address and elsewhere. -/
theorem Memory.read_write (m : Memory) (a b : Nat) (v : Byte) :
    (m.write a v).read b = if a = b then some v else m.read b := by
  induction m with
  | nil => simp [Memory.write, Memory.read]
  | cons p rest ih =>
    obtain ⟨c, w⟩ := p
    simp only [Memory.write]
    split
    · simp [Memory.read]
    · split
      · subst_vars
        by_cases hb : c = b <;> simp [Memory.read, hb]
      · simp only [Memory.read, ih]
        by_cases hcb : c = b
        · subst hcb
          rw [if_pos rfl, if_pos rfl, if_neg (by omega)]
        · rw [if_neg hcb, if_neg hcb]

/-- Every entry of a written buffer is the written one or was there before. -/
theorem Memory.mem_write (m : Memory) (a : Nat) (v : Byte) (p : Host.Cell) (h : p ∈ m.write a v) :
    p = (a, v) ∨ p ∈ m := by
  induction m with
  | nil => simpa [Memory.write] using h
  | cons q rest ih =>
    simp only [Memory.write] at h
    split at h
    · simpa using h
    · split at h
      · rcases List.mem_cons.mp h with h | h
        · exact .inl h
        · exact .inr (by simp [h])
      · rcases List.mem_cons.mp h with h | h
        · exact .inr (by simp [h])
        · rcases ih h with h | h
          · exact .inl h
          · exact .inr (by simp [h])

/-- A write keeps the canonical form. -/
theorem Memory.wf_write (m : Memory) (hm : m.wf) (a : Nat) (v : Byte) : (m.write a v).wf := by
  induction m with
  | nil => simp [Memory.write]
  | cons p rest ih =>
    obtain ⟨c, w⟩ := p
    obtain ⟨hlt, hr⟩ := List.pairwise_cons.mp hm
    simp only [Memory.write]
    split
    · rename_i hac
      refine List.pairwise_cons.mpr ⟨fun q hq => ?_, hm⟩
      rcases List.mem_cons.mp hq with h | h
      · simpa [h] using hac
      · exact Nat.lt_trans hac (hlt q h)
    · split
      · rename_i _ hac
        exact List.pairwise_cons.mpr ⟨fun q hq => by simpa [hac] using hlt q hq, hr⟩
      · refine List.pairwise_cons.mpr ⟨fun q hq => ?_, ih hr⟩
        rcases Memory.mem_write rest a v q hq with h | h
        · subst h
          show c < a
          omega
        · exact hlt q h

/-- A write at an existing address lists no address that does not exist. -/
theorem Memory.inside_write (m : Memory) (cap a : Nat) (v : Byte) (ha : a < cap) (h : ∀ p ∈ m, p.1 < cap) :
    ∀ p ∈ m.write a v, p.1 < cap := by
  intro p hp
  rcases Memory.mem_write m a v p hp with rfl | hp
  · exact ha
  · exact h p hp

/-- Several bytes written keep the canonical form. -/
theorem Memory.wf_writeBytes (m : Memory) (hm : m.wf) (a : Nat) (b : List Byte) : (m.writeBytes a b).wf := by
  induction b generalizing m a with
  | nil => exact hm
  | cons v vs ih => exact ih _ (Memory.wf_write m hm a v) _

/-- Several bytes written inside a buffer list no address that does not exist. -/
theorem Memory.inside_writeBytes (m : Memory) (cap a : Nat) (b : List Byte) (hb : a + b.length ≤ cap)
    (h : ∀ p ∈ m, p.1 < cap) : ∀ p ∈ m.writeBytes a b, p.1 < cap := by
  induction b generalizing m a with
  | nil => exact h
  | cons v vs ih =>
    simp only [List.length_cons] at hb
    exact ih _ _ (by omega) (Memory.inside_write m cap a v (by omega) h)

/-- A read answers the value of the latest write to that address, 20_memory.md R64, for a write of several bytes. -/
theorem Memory.read_writeBytes (m : Memory) (a : Nat) (b : List Byte) (x : Nat) :
    (m.writeBytes a b).read x = if a ≤ x ∧ x < a + b.length then b[x - a]? else m.read x := by
  induction b generalizing m a with
  | nil => rw [if_neg (by simp)]; rfl
  | cons v vs ih =>
    rw [Memory.writeBytes, ih, Memory.read_write]
    simp only [List.length_cons]
    by_cases h : a = x
    · subst h
      rw [if_neg (by omega), if_pos rfl, if_pos ⟨by omega, by omega⟩]
      simp
    · by_cases h2 : a + 1 ≤ x ∧ x < a + 1 + vs.length
      · rw [if_pos h2, if_pos ⟨by omega, by omega⟩]
        have : x - a = (x - (a + 1)) + 1 := by omega
        rw [this, List.getElem?_cons_succ]
      · rw [if_neg h2, if_neg h, if_neg (by omega)]

/-- `MemRead` answers bytes exactly when every one of them has been written, and then the buffer's bytes in address order. -/
theorem Memory.readBytes_eq_ok (space : Space) (m : Memory) (a n : Nat) (b : List Byte) :
    m.readBytes space a n = .ok b ↔ b.length = n ∧ ∀ k, k < n → m.read (a + k) = b[k]? := by
  induction n generalizing a b with
  | zero =>
    simp only [Memory.readBytes, Except.ok.injEq]
    constructor
    · rintro rfl; simp
    · rintro ⟨h, -⟩; exact (List.length_eq_zero_iff.mp h).symm
  | succ n ih =>
    rw [Memory.readBytes]
    cases hr : m.read a with
    | none =>
      simp only [reduceCtorEq, false_iff, not_and, not_forall]
      intro hb
      refine ⟨0, by omega, ?_⟩
      rw [Nat.add_zero, hr, List.getElem?_eq_getElem (by omega)]
      simp
    | some v =>
      cases b with
      | nil =>
        simp only [List.length_nil, Nat.right_eq_add, Nat.add_eq_zero_iff, one_ne_zero, and_false, false_and, iff_false]
        cases m.readBytes space (a + 1) n <;> simp [Except.map]
      | cons w ws =>
        have key := ih (a + 1) ws
        constructor
        · intro h
          cases hq : m.readBytes space (a + 1) n with
          | error e => simp [hq, Except.map] at h
          | ok c =>
            simp only [hq, Except.map, Except.ok.injEq, List.cons.injEq] at h
            obtain ⟨rfl, rfl⟩ := h
            obtain ⟨hl, hk⟩ := key.mp hq
            refine ⟨by simp [hl], fun k hk' => ?_⟩
            cases k with
            | zero => simpa using hr
            | succ k =>
              have := hk k (by omega)
              rw [List.getElem?_cons_succ, ← this]
              congr 1
              omega
        · rintro ⟨hl, hk⟩
          have h0 := hk 0 (by omega)
          rw [Nat.add_zero, hr] at h0
          simp only [List.getElem?_cons_zero, Option.some.injEq] at h0
          have : m.readBytes space (a + 1) n = .ok ws := by
            refine key.mpr ⟨by simpa using hl, fun k hk' => ?_⟩
            have := hk (k + 1) (by omega)
            rw [List.getElem?_cons_succ] at this
            rw [← this]
            congr 1
            omega
          rw [this, h0]
          rfl

/-- `MemRead` stops only at a byte that holds no value, and names one in its range. -/
theorem Memory.readBytes_error (space : Space) (m : Memory) (a n : Nat) (e : Halt)
    (h : m.readBytes space a n = .error e) :
    ∃ x, a ≤ x ∧ x < a + n ∧ m.read x = none ∧ e = .unwritten space x := by
  induction n generalizing a with
  | zero => simp [Memory.readBytes] at h
  | succ n ih =>
    rw [Memory.readBytes] at h
    cases hr : m.read a with
    | none =>
      simp only [hr, Except.error.injEq] at h
      exact ⟨a, by omega, by omega, hr, h.symm⟩
    | some v =>
      simp only [hr] at h
      cases hq : m.readBytes space (a + 1) n with
      | ok c => simp [hq, Except.map] at h
      | error e' =>
        simp only [hq, Except.map, Except.error.injEq] at h
        subst h
        obtain ⟨x, h1, h2, h3, h4⟩ := ih (a + 1) hq
        exact ⟨x, by omega, by omega, h3, h4⟩

/-- Every byte in a range has been written: `MemRead` answers. -/
theorem Memory.readBytes_of_written (space : Space) (m : Memory) (a n : Nat)
    (h : ∀ x, a ≤ x → x < a + n → m.read x ≠ none) : ∃ b, m.readBytes space a n = .ok b := by
  cases hq : m.readBytes space a n with
  | ok b => exact ⟨b, rfl⟩
  | error e =>
    obtain ⟨x, h1, h2, h3, -⟩ := Memory.readBytes_error space m a n e hq
    exact absurd h3 (h x h1 h2)

@[simp] theorem textImage_nil : textImage [] = [] := rfl

@[simp] theorem textImage_cons (u : CodeUnit) (t : List CodeUnit) :
    textImage (u :: t) = unitBytes u ++ textImage t := by simp [textImage]

@[simp] theorem unitBytes_length (u : CodeUnit) : (unitBytes u).length = 2 := rfl

@[simp] theorem textImage_length (t : List CodeUnit) : (textImage t).length = 2 * t.length := by
  induction t with
  | nil => rfl
  | cons u t ih => simp [ih]; omega

/-- A code unit read back from its two bytes, 20_memory.md R53. -/
theorem unitOf_unitBytes (u : CodeUnit) :
    unitOf (BitVec.ofNat 8 (u.toNat % 256)) (BitVec.ofNat 8 (u.toNat / 256)) = u := by
  apply BitVec.eq_of_toNat_eq
  have := u.isLt
  simp only [unitOf, BitVec.toNat_ofNat]
  omega

/-- The two bytes of a code unit made of two bytes, 20_memory.md R53. -/
theorem unitBytes_unitOf (lo hi : Byte) : unitBytes (unitOf lo hi) = [lo, hi] := by
  have h1 := lo.isLt
  have h2 := hi.isLt
  simp only [unitBytes, unitOf, List.cons.injEq, and_true]
  constructor <;> apply BitVec.eq_of_toNat_eq <;> simp only [BitVec.toNat_ofNat] <;> omega

/-- `Unit(space, k)` answers exactly when both its bytes have been written, low byte first, 20_memory.md R53. -/
theorem Memory.readUnit_eq_ok (space : Space) (m : Memory) (k : Nat) (u : CodeUnit) :
    m.readUnit space k = .ok u ↔ ∀ a, a < 2 → m.read (2 * k + a) = (unitBytes u)[a]? := by
  unfold Memory.readUnit
  constructor
  · intro h
    cases hq : m.readBytes space (2 * k) 2 with
    | error e => simp [hq, Except.map] at h
    | ok b =>
      obtain ⟨hl, hk⟩ := (Memory.readBytes_eq_ok space m (2 * k) 2 b).mp hq
      match b, hl with
      | [lo, hi], _ =>
        simp only [hq, Except.map, List.getD_cons_zero, List.getD_cons_succ, Except.ok.injEq] at h
        subst h
        rw [unitBytes_unitOf]
        exact hk
  · intro h
    have : m.readBytes space (2 * k) 2 = .ok (unitBytes u) :=
      (Memory.readBytes_eq_ok space m (2 * k) 2 _).mpr ⟨rfl, h⟩
    rw [this]
    exact congrArg Except.ok (unitOf_unitBytes u)

/-- A text is read exactly when the buffer holds its image, 20_memory.md R51 and R53. -/
theorem Memory.readUnits_eq_ok (space : Space) (m : Memory) (k n : Nat) (t : List CodeUnit) :
    m.readUnits space k n = .ok t ↔
      t.length = n ∧ ∀ a, a < 2 * n → m.read (2 * k + a) = (textImage t)[a]? := by
  induction n generalizing k t with
  | zero =>
    simp only [Memory.readUnits, Except.ok.injEq]
    constructor
    · rintro rfl; simp
    · rintro ⟨h, -⟩; exact (List.length_eq_zero_iff.mp h).symm
  | succ n ih =>
    rw [Memory.readUnits]
    constructor
    · intro h
      cases hu : m.readUnit space k with
      | error e => simp [hu, Except.bind] at h
      | ok u =>
        cases hq : m.readUnits space (k + 1) n with
        | error e => simp [hu, hq, Except.bind, Except.map] at h
        | ok r =>
          simp only [hu, hq, Except.bind, Except.map, Except.ok.injEq] at h
          subst h
          obtain ⟨hl, hk⟩ := (ih (k + 1) r).mp hq
          have hu' := (Memory.readUnit_eq_ok space m k u).mp hu
          refine ⟨by simp [hl], fun a ha => ?_⟩
          rw [textImage_cons]
          by_cases h2 : a < 2
          · rw [List.getElem?_append_left (by simpa using h2)]
            exact hu' a h2
          · rw [List.getElem?_append_right (by simp; omega)]
            have := hk (a - 2) (by omega)
            rw [unitBytes_length, ← this]
            congr 1
            omega
    · rintro ⟨hl, hk⟩
      match t, hl with
      | u :: r, hl =>
        have hu : m.readUnit space k = .ok u := by
          refine (Memory.readUnit_eq_ok space m k u).mpr fun a ha => ?_
          have := hk a (by omega)
          rw [textImage_cons, List.getElem?_append_left (by simpa using ha)] at this
          exact this
        have hq : m.readUnits space (k + 1) n = .ok r := by
          refine (ih (k + 1) r).mpr ⟨by simpa using hl, fun a ha => ?_⟩
          have := hk (a + 2) (by omega)
          rw [textImage_cons, List.getElem?_append_right (by simp)] at this
          simp only [unitBytes_length, Nat.add_sub_cancel] at this
          rw [← this]
          congr 1
          omega
        rw [hu, hq]
        rfl

/-- A text read stops only at a byte that holds no value, and names one in its range. -/
theorem Memory.readUnits_error (space : Space) (m : Memory) (k n : Nat) (e : Halt)
    (h : m.readUnits space k n = .error e) :
    ∃ x, 2 * k ≤ x ∧ x < 2 * (k + n) ∧ m.read x = none ∧ e = .unwritten space x := by
  induction n generalizing k with
  | zero => simp [Memory.readUnits] at h
  | succ n ih =>
    rw [Memory.readUnits] at h
    cases hu : m.readUnit space k with
    | error e' =>
      simp only [hu, Except.bind, Except.error.injEq] at h
      subst h
      unfold Memory.readUnit at hu
      cases hb : m.readBytes space (2 * k) 2 with
      | ok b => simp [hb, Except.map] at hu
      | error e'' =>
        simp only [hb, Except.map, Except.error.injEq] at hu
        subst hu
        obtain ⟨x, h1, h2, h3, h4⟩ := Memory.readBytes_error space m _ _ _ hb
        exact ⟨x, h1, by omega, h3, h4⟩
    | ok u =>
      cases hq : m.readUnits space (k + 1) n with
      | ok r => simp [hu, hq, Except.bind, Except.map] at h
      | error e' =>
        simp only [hu, hq, Except.bind, Except.map, Except.error.injEq] at h
        subst h
        obtain ⟨x, h1, h2, h3, h4⟩ := ih (k + 1) hq
        exact ⟨x, by omega, by omega, h3, h4⟩

/-- Every byte of a text has been written: it is read. -/
theorem Memory.readUnits_of_written (space : Space) (m : Memory) (n : Nat)
    (h : ∀ x, x < 2 * n → m.read x ≠ none) : ∃ t, m.readUnits space 0 n = .ok t := by
  cases hq : m.readUnits space 0 n with
  | ok t => exact ⟨t, rfl⟩
  | error e =>
    obtain ⟨x, -, h2, h3, -⟩ := Memory.readUnits_error space m 0 n e hq
    exact absurd h3 (h x (by omega))

end Sys2Proof.Machine
end

