-- ==== Sys2Proof/Laws/HostProgram.lean ====
section
/-! SUPPORT. What the parts of a host program answer. -/

namespace Sys2Proof.Machine

@[simp] theorem ProgramOutcome.finished_andThen {α β : Type} (a : α) (schedule : Schedule) (s : State)
    (k : α → Schedule → State → ProgramOutcome β) : (ProgramOutcome.finished a schedule s).andThen k = k a schedule s := rfl

/-- A composition finishes exactly when its parts do. -/
theorem ProgramOutcome.andThen_eq_finished {α β : Type} (o : ProgramOutcome α)
    (k : α → Schedule → State → ProgramOutcome β) (b : β) (r : Schedule) (u : State) :
    o.andThen k = .finished b r u ↔ ∃ a schedule s, o = .finished a schedule s ∧ k a schedule s = .finished b r u := by
  cases o <;> simp [ProgramOutcome.andThen]

/-- A `WAIT` that finishes has read `DONE = 1`, spec/30_encoding.md R83, whatever the schedule. -/
theorem waitDone_finished (schedule r : Schedule) (s t : State) (v : Word) (h : waitDone schedule s = .finished v r t) :
    statusDone v = true := by
  induction schedule generalizing s with
  | nil =>
    obtain ⟨w, rest, u, -, h⟩ := (ProgramOutcome.andThen_eq_finished _ _ _ _ _).mp h
    split at h
    · simp only [ProgramOutcome.finished.injEq] at h
      exact h.1 ▸ ‹_›
    · simp at h
  | cons b rest ih =>
    obtain ⟨w, _, u, -, h⟩ := (ProgramOutcome.andThen_eq_finished _ _ _ _ _).mp h
    split at h
    · simp only [ProgramOutcome.finished.injEq] at h
      exact h.1 ▸ ‹_›
    · exact ih u h

/-- A call whose command ended in an error returns the error's code, makes no further access and has no value,
spec/46_host_access.md R311. -/
theorem finishCall_error (ty : OperandType) (status : Word) (schedule : Schedule) (s : State) (h : statusErr status ≠ 0) :
    finishCall ty status schedule s = .finished (.error (statusErr status)) schedule s := if_pos h

/-- A call whose command succeeded returns the elements the host reads from DST, spec/46_host_access.md R311. -/
theorem finishCall_ok (ty : OperandType) (status : Word) (schedule : Schedule) (s : State) (h : statusErr status = 0) :
    finishCall ty status schedule s =
      (readResult ty schedule s).andThen fun r schedule t => .finished (.ok (elementsOf ty r.2)) schedule t :=
  if_neg (by simp [h])

/-- Between commands the result type is that of the command that CMD holds, spec/30_encoding.md R83. -/
theorem State.resultType_of_decode (s : State) (i : Instr) (h : decode s.cmd = .ok i) :
    s.resultType = Sys2Proof.Machine.resultType i := by
  simp only [State.resultType, h]

/-- A text read back from its buffer image, spec/20_memory.md R53. -/
theorem unitsOf_textImage (t : List CodeUnit) : unitsOf (textImage t) = t := by
  induction t with
  | nil => rfl
  | cons u t ih =>
    rw [textImage_cons]
    show unitOf _ _ :: unitsOf (textImage t) = _
    rw [ih, unitOf_unitBytes]

/-- The two units of a character above the first plane are a surrogate pair whose code point is the character's,
spec/40_utf8_encoder.md R104. -/
theorem charUnits_pair (c : Char) (h : ¬c.toNat < 0x10000) :
    ∃ hi lo, charUnits c = [hi, lo] ∧ isHigh hi = true ∧ isLow lo = true ∧ pairPoint hi lo = c.toNat := by
  have hc : c.toNat < 0x110000 := by
    rcases c.valid with h | h <;> simp only [Char.toNat] <;> omega
  unfold charUnits
  rw [if_neg h]
  refine ⟨_, _, rfl, ?_, ?_, ?_⟩
  · unfold isHigh; simp only [BitVec.toNat_ofNat, decide_eq_true_eq]; omega
  · unfold isLow; simp only [BitVec.toNat_ofNat, decide_eq_true_eq]; omega
  · unfold pairPoint; simp only [BitVec.toNat_ofNat]; omega

end Sys2Proof.Machine
end

