-- ==== Sys2Proof/Machine/Instances.lean ====
section
/-! DEFINITION. Several instances of the block side by side: spec/60_exceptions.md R235 and spec/20_memory.md R66. Each is a
whole machine of its own with its own host, parameters and turns; they share nothing and send each other no signal. -/

namespace Sys2Proof.Machine

/-- Several instances, each a whole state. An instance has no identifier of its own (R235): its place in the list is the
model's name for it (log 20). -/
abbrev Instances := List State

/-- The instances after reset, each idle, with no start-up protocol, R235: one for each pair of parameters and a number its two
counters of free values start from. The spec leaves open how unspecified values of two instances relate (46_host_access.md
R305, R308). DESIGN CHOICE: instances whose counters are equal read equal unspecified values, and a claim about several
instances is one for every list of starts, so that it holds however those values relate (log 20). -/
def Instances.resetWith (starts : List (Config × Nat)) : Instances :=
  starts.map fun p => { State.resetWith p.1 with draws := p.2, resets := p.2 }

/-- One instance takes a step, R66; every other stays as it is. Where there is no such instance nothing happens. -/
def Instances.stepAt (k : Nat) (m : Instances) : Host.Outcome Instances Fault Refusal :=
  match m[k]? with
  | none => .next m
  | some s =>
    match step s with
    | .next t => .next (m.set k t)
    | .fault f => .fault f
    | .refused r => .refused r

/-- A run of the instances, `order` saying which steps next: the spec orders no operations of different instances (R66), and
the model takes every order (log 20). -/
def Instances.run : List Nat → Instances → Host.Outcome Instances Fault Refusal
  | [], m => .next m
  | k :: order, m =>
    match m.stepAt k with
    | .next m' => Instances.run order m'
    | .fault f => .fault f
    | .refused r => .refused r

end Sys2Proof.Machine
end

