-- ==== Sys2Proof/Laws/Instances.lean ====
section
/-! SUPPORT. Instances share nothing: spec/60_exceptions.md R235 and spec/20_memory.md R66. -/

namespace Sys2Proof.Machine

/-- Every instance is idle after reset, R235. -/
theorem Instances.resetWith_idle (starts : List (Config × Nat)) (s : State) (h : s ∈ Instances.resetWith starts) :
    s.busy = false ∧ s.work.phase = .idle := by
  obtain ⟨c, -, rfl⟩ := List.mem_map.mp h
  exact ⟨show statusBusy 0 = false by decide, rfl⟩

/-- Everything a step of one instance can do when it goes on. -/
theorem Instances.stepAt_next (k : Nat) (m m' : Instances) (h : m.stepAt k = .next m') :
    (m[k]? = none ∧ m' = m) ∨ ∃ s t, m[k]? = some s ∧ step s = .next t ∧ m' = m.set k t := by
  unfold Instances.stepAt at h
  cases hs : m[k]? with
  | none => simp only [hs, Host.Outcome.next.injEq] at h; exact .inl ⟨rfl, h.symm⟩
  | some s =>
    cases ht : step s with
    | next t => simp only [hs, ht, Host.Outcome.next.injEq] at h; exact .inr ⟨s, t, rfl, ht, h.symm⟩
    | fault f => simp [hs, ht] at h
    | refused r => simp [hs, ht] at h

/-- A step of one instance is a step of that machine alone. -/
theorem Instances.stepAt_of_next (k : Nat) (m : Instances) (s t : State) (hs : m[k]? = some s) (ht : step s = .next t) :
    m.stepAt k = .next (m.set k t) := by
  simp only [Instances.stepAt, hs, ht]

/-- No other instance changes, R66. -/
theorem Instances.stepAt_other (k j : Nat) (m m' : Instances) (h : m.stepAt k = .next m') (hj : j ≠ k) : m'[j]? = m[j]? := by
  rcases Instances.stepAt_next k m m' h with ⟨-, rfl⟩ | ⟨s, t, -, -, rfl⟩
  · rfl
  · exact List.getElem?_set_ne (Ne.symm hj)

/-- Operations on different instances need no ordering, R66: two steps of different instances end in the same state in either
order. -/
theorem Instances.stepAt_comm (j k : Nat) (m : Instances) (s s' t t' : State) (hjk : j ≠ k) (hs : m[j]? = some s)
    (ht : m[k]? = some t) (h1 : step s = .next s') (h2 : step t = .next t') :
    Instances.run [j, k] m = .next ((m.set j s').set k t') ∧ Instances.run [k, j] m = .next ((m.set j s').set k t') := by
  have hk : (m.set j s')[k]? = some t := (List.getElem?_set_ne hjk).trans ht
  have hj : (m.set k t')[j]? = some s := (List.getElem?_set_ne (Ne.symm hjk)).trans hs
  constructor
  · simp only [Instances.run, Instances.stepAt_of_next j m s s' hs h1, Instances.stepAt_of_next k _ t t' hk h2]
  · simp only [Instances.run, Instances.stepAt_of_next k m t t' ht h2, Instances.stepAt_of_next j _ s s' hj h1]
    rw [List.set_comm _ _ hjk]

end Sys2Proof.Machine
end

