-- ==== Sys2Proof/Laws/State.lean ====
section
/-! SUPPORT. One lemma per field per update of the state, each true by rfl, so that no proof unfolds a record update. -/

namespace Sys2Proof.Machine

@[simp] theorem State.issue_cfg (s : State) (v : Word) : (s.issue v).cfg = s.cfg := rfl
@[simp] theorem State.issue_cmd (s : State) (v : Word) : (s.issue v).cmd = v := rfl
@[simp] theorem State.issue_status (s : State) (v : Word) : (s.issue v).status = statusIssued := rfl
@[simp] theorem State.issue_srcLen (s : State) (v : Word) : (s.issue v).srcLen = s.srcLen := rfl
@[simp] theorem State.issue_keyLen (s : State) (v : Word) : (s.issue v).keyLen = s.keyLen := rfl
@[simp] theorem State.issue_dstLen (s : State) (v : Word) : (s.issue v).dstLen = s.dstLen := rfl
@[simp] theorem State.issue_src (s : State) (v : Word) : (s.issue v).src = s.src := rfl
@[simp] theorem State.issue_key (s : State) (v : Word) : (s.issue v).key = s.key := rfl
@[simp] theorem State.issue_dst (s : State) (v : Word) : (s.issue v).dst = s.dst := rfl
@[simp] theorem State.issue_work (s : State) (v : Word) : (s.issue v).work = s.work := rfl
@[simp] theorem State.issue_turns (s : State) (v : Word) : (s.issue v).turns = s.turns := rfl
@[simp] theorem State.issue_replies (s : State) (v : Word) : (s.issue v).replies = s.replies := rfl
@[simp] theorem State.issue_draws (s : State) (v : Word) : (s.issue v).draws = s.draws := rfl
@[simp] theorem State.issue_resets (s : State) (v : Word) : (s.issue v).resets = s.resets := rfl

@[simp] theorem State.freeWork_cfg (s : State) : (s.freeWork).cfg = s.cfg := rfl
@[simp] theorem State.freeWork_cmd (s : State) : (s.freeWork).cmd = s.cmd := rfl
@[simp] theorem State.freeWork_status (s : State) : (s.freeWork).status = s.status := rfl
@[simp] theorem State.freeWork_srcLen (s : State) : (s.freeWork).srcLen = s.srcLen := rfl
@[simp] theorem State.freeWork_keyLen (s : State) : (s.freeWork).keyLen = s.keyLen := rfl
@[simp] theorem State.freeWork_dstLen (s : State) : (s.freeWork).dstLen = s.dstLen := rfl
@[simp] theorem State.freeWork_src (s : State) : (s.freeWork).src = s.src := rfl
@[simp] theorem State.freeWork_key (s : State) : (s.freeWork).key = s.key := rfl
@[simp] theorem State.freeWork_dst (s : State) : (s.freeWork).dst = s.dst := rfl
@[simp] theorem State.freeWork_work (s : State) : (s.freeWork).work = Work.free s.draws := rfl
@[simp] theorem State.freeWork_turns (s : State) : (s.freeWork).turns = s.turns := rfl
@[simp] theorem State.freeWork_replies (s : State) : (s.freeWork).replies = s.replies := rfl
@[simp] theorem State.freeWork_draws (s : State) : (s.freeWork).draws = s.draws + 1 := rfl
@[simp] theorem State.freeWork_resets (s : State) : (s.freeWork).resets = s.resets := rfl

@[simp] theorem State.errorEntry_cfg (s : State) (e : CmdError) : (s.errorEntry e).cfg = s.cfg := rfl
@[simp] theorem State.errorEntry_cmd (s : State) (e : CmdError) : (s.errorEntry e).cmd = s.cmd := rfl
@[simp] theorem State.errorEntry_status (s : State) (e : CmdError) : (s.errorEntry e).status = statusFailed e := rfl
@[simp] theorem State.errorEntry_srcLen (s : State) (e : CmdError) : (s.errorEntry e).srcLen = s.srcLen := rfl
@[simp] theorem State.errorEntry_keyLen (s : State) (e : CmdError) : (s.errorEntry e).keyLen = s.keyLen := rfl
@[simp] theorem State.errorEntry_dstLen (s : State) (e : CmdError) : (s.errorEntry e).dstLen = 0 := rfl
@[simp] theorem State.errorEntry_src (s : State) (e : CmdError) : (s.errorEntry e).src = s.src := rfl
@[simp] theorem State.errorEntry_key (s : State) (e : CmdError) : (s.errorEntry e).key = s.key := rfl
@[simp] theorem State.errorEntry_dst (s : State) (e : CmdError) : (s.errorEntry e).dst = s.dst := rfl
@[simp] theorem State.errorEntry_work (s : State) (e : CmdError) : (s.errorEntry e).work = Work.free s.draws := rfl
@[simp] theorem State.errorEntry_turns (s : State) (e : CmdError) : (s.errorEntry e).turns = s.turns := rfl
@[simp] theorem State.errorEntry_replies (s : State) (e : CmdError) : (s.errorEntry e).replies = s.replies := rfl
@[simp] theorem State.errorEntry_draws (s : State) (e : CmdError) : (s.errorEntry e).draws = s.draws + 1 := rfl
@[simp] theorem State.errorEntry_resets (s : State) (e : CmdError) : (s.errorEntry e).resets = s.resets := rfl

@[simp] theorem State.succeed_cfg (s : State) (r : Result) : (s.succeed r).cfg = s.cfg := rfl
@[simp] theorem State.succeed_cmd (s : State) (r : Result) : (s.succeed r).cmd = s.cmd := rfl
@[simp] theorem State.succeed_status (s : State) (r : Result) : (s.succeed r).status = statusOk := rfl
@[simp] theorem State.succeed_srcLen (s : State) (r : Result) : (s.succeed r).srcLen = s.srcLen := rfl
@[simp] theorem State.succeed_keyLen (s : State) (r : Result) : (s.succeed r).keyLen = s.keyLen := rfl
@[simp] theorem State.succeed_dstLen (s : State) (r : Result) : (s.succeed r).dstLen = BitVec.ofNat 32 r.count := rfl
@[simp] theorem State.succeed_src (s : State) (r : Result) : (s.succeed r).src = s.src := rfl
@[simp] theorem State.succeed_key (s : State) (r : Result) : (s.succeed r).key = s.key := rfl
@[simp] theorem State.succeed_dst (s : State) (r : Result) : (s.succeed r).dst = s.dst.writeBytes 0 r.image := rfl
@[simp] theorem State.succeed_work (s : State) (r : Result) : (s.succeed r).work = Work.free s.draws := rfl
@[simp] theorem State.succeed_turns (s : State) (r : Result) : (s.succeed r).turns = s.turns := rfl
@[simp] theorem State.succeed_replies (s : State) (r : Result) : (s.succeed r).replies = s.replies := rfl
@[simp] theorem State.succeed_draws (s : State) (r : Result) : (s.succeed r).draws = s.draws + 1 := rfl
@[simp] theorem State.succeed_resets (s : State) (r : Result) : (s.succeed r).resets = s.resets := rfl

@[simp] theorem State.reply_cfg (s : State) (r : Reply) : (s.reply r).cfg = s.cfg := rfl
@[simp] theorem State.reply_cmd (s : State) (r : Reply) : (s.reply r).cmd = s.cmd := rfl
@[simp] theorem State.reply_status (s : State) (r : Reply) : (s.reply r).status = s.status := rfl
@[simp] theorem State.reply_srcLen (s : State) (r : Reply) : (s.reply r).srcLen = s.srcLen := rfl
@[simp] theorem State.reply_keyLen (s : State) (r : Reply) : (s.reply r).keyLen = s.keyLen := rfl
@[simp] theorem State.reply_dstLen (s : State) (r : Reply) : (s.reply r).dstLen = s.dstLen := rfl
@[simp] theorem State.reply_src (s : State) (r : Reply) : (s.reply r).src = s.src := rfl
@[simp] theorem State.reply_key (s : State) (r : Reply) : (s.reply r).key = s.key := rfl
@[simp] theorem State.reply_dst (s : State) (r : Reply) : (s.reply r).dst = s.dst := rfl
@[simp] theorem State.reply_work (s : State) (r : Reply) : (s.reply r).work = s.work := rfl
@[simp] theorem State.reply_turns (s : State) (r : Reply) : (s.reply r).turns = s.turns := rfl
@[simp] theorem State.reply_replies (s : State) (r : Reply) : (s.reply r).replies = r :: s.replies := rfl
@[simp] theorem State.reply_draws (s : State) (r : Reply) : (s.reply r).draws = s.draws := rfl
@[simp] theorem State.reply_resets (s : State) (r : Reply) : (s.reply r).resets = s.resets := rfl

@[simp] theorem State.replyDrawn_cfg (s : State) (r : Reply) : (s.replyDrawn r).cfg = s.cfg := rfl
@[simp] theorem State.replyDrawn_cmd (s : State) (r : Reply) : (s.replyDrawn r).cmd = s.cmd := rfl
@[simp] theorem State.replyDrawn_status (s : State) (r : Reply) : (s.replyDrawn r).status = s.status := rfl
@[simp] theorem State.replyDrawn_srcLen (s : State) (r : Reply) : (s.replyDrawn r).srcLen = s.srcLen := rfl
@[simp] theorem State.replyDrawn_keyLen (s : State) (r : Reply) : (s.replyDrawn r).keyLen = s.keyLen := rfl
@[simp] theorem State.replyDrawn_dstLen (s : State) (r : Reply) : (s.replyDrawn r).dstLen = s.dstLen := rfl
@[simp] theorem State.replyDrawn_src (s : State) (r : Reply) : (s.replyDrawn r).src = s.src := rfl
@[simp] theorem State.replyDrawn_key (s : State) (r : Reply) : (s.replyDrawn r).key = s.key := rfl
@[simp] theorem State.replyDrawn_dst (s : State) (r : Reply) : (s.replyDrawn r).dst = s.dst := rfl
@[simp] theorem State.replyDrawn_work (s : State) (r : Reply) : (s.replyDrawn r).work = s.work := rfl
@[simp] theorem State.replyDrawn_turns (s : State) (r : Reply) : (s.replyDrawn r).turns = s.turns := rfl
@[simp] theorem State.replyDrawn_replies (s : State) (r : Reply) : (s.replyDrawn r).replies = r :: s.replies := rfl
@[simp] theorem State.replyDrawn_draws (s : State) (r : Reply) : (s.replyDrawn r).draws = s.draws + 1 := rfl
@[simp] theorem State.replyDrawn_resets (s : State) (r : Reply) : (s.replyDrawn r).resets = s.resets := rfl

@[simp] theorem State.placeCommand_cfg (s : State) (v : Word) : (s.placeCommand v).cfg = s.cfg := rfl
@[simp] theorem State.placeCommand_cmd (s : State) (v : Word) : (s.placeCommand v).cmd = v := rfl
@[simp] theorem State.placeCommand_status (s : State) (v : Word) : (s.placeCommand v).status = statusIssued := rfl
@[simp] theorem State.placeCommand_srcLen (s : State) (v : Word) : (s.placeCommand v).srcLen = s.srcLen := rfl
@[simp] theorem State.placeCommand_keyLen (s : State) (v : Word) : (s.placeCommand v).keyLen = s.keyLen := rfl
@[simp] theorem State.placeCommand_dstLen (s : State) (v : Word) : (s.placeCommand v).dstLen = s.dstLen := rfl
@[simp] theorem State.placeCommand_src (s : State) (v : Word) : (s.placeCommand v).src = s.src := rfl
@[simp] theorem State.placeCommand_key (s : State) (v : Word) : (s.placeCommand v).key = s.key := rfl
@[simp] theorem State.placeCommand_dst (s : State) (v : Word) : (s.placeCommand v).dst = s.dst := rfl
@[simp] theorem State.placeCommand_work (s : State) (v : Word) : (s.placeCommand v).work = s.work := rfl
@[simp] theorem State.placeCommand_turns (s : State) (v : Word) : (s.placeCommand v).turns = .engine :: s.turns := rfl
@[simp] theorem State.placeCommand_replies (s : State) (v : Word) : (s.placeCommand v).replies = s.replies := rfl
@[simp] theorem State.placeCommand_draws (s : State) (v : Word) : (s.placeCommand v).draws = s.draws := rfl
@[simp] theorem State.placeCommand_resets (s : State) (v : Word) : (s.placeCommand v).resets = s.resets := rfl

@[simp] theorem State.resetEvent_cfg (s : State) : (s.resetEvent).cfg = s.cfg := rfl
@[simp] theorem State.resetEvent_cmd (s : State) : (s.resetEvent).cmd = 0 := rfl
@[simp] theorem State.resetEvent_status (s : State) : (s.resetEvent).status = 0 := rfl
@[simp] theorem State.resetEvent_srcLen (s : State) : (s.resetEvent).srcLen = 0 := rfl
@[simp] theorem State.resetEvent_keyLen (s : State) : (s.resetEvent).keyLen = 0 := rfl
@[simp] theorem State.resetEvent_dstLen (s : State) : (s.resetEvent).dstLen = 0 := rfl
@[simp] theorem State.resetEvent_src (s : State) : (s.resetEvent).src = [] := rfl
@[simp] theorem State.resetEvent_key (s : State) : (s.resetEvent).key = [] := rfl
@[simp] theorem State.resetEvent_dst (s : State) : (s.resetEvent).dst = [] := rfl
@[simp] theorem State.resetEvent_work (s : State) : (s.resetEvent).work = Work.free s.draws := rfl
@[simp] theorem State.resetEvent_turns (s : State) : (s.resetEvent).turns = s.turns := rfl
@[simp] theorem State.resetEvent_replies (s : State) : (s.resetEvent).replies = s.replies := rfl
@[simp] theorem State.resetEvent_draws (s : State) : (s.resetEvent).draws = s.draws + 1 := rfl
@[simp] theorem State.resetEvent_resets (s : State) : (s.resetEvent).resets = s.resets + 1 := rfl

@[simp] theorem State.setBuf_cfg (s : State) (space : Space) (m : Memory) : (s.setBuf space m).cfg = s.cfg := by
  cases space <;> rfl
@[simp] theorem State.setBuf_cmd (s : State) (space : Space) (m : Memory) : (s.setBuf space m).cmd = s.cmd := by
  cases space <;> rfl
@[simp] theorem State.setBuf_status (s : State) (space : Space) (m : Memory) : (s.setBuf space m).status = s.status := by
  cases space <;> rfl
@[simp] theorem State.setBuf_srcLen (s : State) (space : Space) (m : Memory) : (s.setBuf space m).srcLen = s.srcLen := by
  cases space <;> rfl
@[simp] theorem State.setBuf_keyLen (s : State) (space : Space) (m : Memory) : (s.setBuf space m).keyLen = s.keyLen := by
  cases space <;> rfl
@[simp] theorem State.setBuf_dstLen (s : State) (space : Space) (m : Memory) : (s.setBuf space m).dstLen = s.dstLen := by
  cases space <;> rfl
@[simp] theorem State.setBuf_work (s : State) (space : Space) (m : Memory) : (s.setBuf space m).work = s.work := by
  cases space <;> rfl
@[simp] theorem State.setBuf_turns (s : State) (space : Space) (m : Memory) : (s.setBuf space m).turns = s.turns := by
  cases space <;> rfl
@[simp] theorem State.setBuf_replies (s : State) (space : Space) (m : Memory) : (s.setBuf space m).replies = s.replies := by
  cases space <;> rfl
@[simp] theorem State.setBuf_draws (s : State) (space : Space) (m : Memory) : (s.setBuf space m).draws = s.draws := by
  cases space <;> rfl
@[simp] theorem State.setBuf_resets (s : State) (space : Space) (m : Memory) : (s.setBuf space m).resets = s.resets := by
  cases space <;> rfl

@[simp] theorem State.buf_src (s : State) : s.buf .src = s.src := rfl
@[simp] theorem cfgCap_src (c : Config) : Config.cap c .src = c.srcCap := rfl
@[simp] theorem State.setBuf_src_src (s : State) (m : Memory) : (s.setBuf .src m).src = m := rfl
@[simp] theorem State.setBuf_src_key (s : State) (m : Memory) : (s.setBuf .src m).key = s.key := rfl
@[simp] theorem State.setBuf_src_dst (s : State) (m : Memory) : (s.setBuf .src m).dst = s.dst := rfl
@[simp] theorem State.buf_key (s : State) : s.buf .key = s.key := rfl
@[simp] theorem cfgCap_key (c : Config) : Config.cap c .key = c.keyCap := rfl
@[simp] theorem State.setBuf_key_src (s : State) (m : Memory) : (s.setBuf .key m).src = s.src := rfl
@[simp] theorem State.setBuf_key_key (s : State) (m : Memory) : (s.setBuf .key m).key = m := rfl
@[simp] theorem State.setBuf_key_dst (s : State) (m : Memory) : (s.setBuf .key m).dst = s.dst := rfl
@[simp] theorem State.buf_dst (s : State) : s.buf .dst = s.dst := rfl
@[simp] theorem cfgCap_dst (c : Config) : Config.cap c .dst = c.dstCap := rfl
@[simp] theorem State.setBuf_dst_src (s : State) (m : Memory) : (s.setBuf .dst m).src = s.src := rfl
@[simp] theorem State.setBuf_dst_key (s : State) (m : Memory) : (s.setBuf .dst m).key = s.key := rfl
@[simp] theorem State.setBuf_dst_dst (s : State) (m : Memory) : (s.setBuf .dst m).dst = m := rfl

/-- A buffer write changes the buffer named and no other. -/
theorem State.setBuf_buf (s : State) (p q : Space) (m : Memory) :
    (s.setBuf p m).buf q = if q = p then m else s.buf q := by
  cases p <;> cases q <;> rfl

/-- The sequencer is idle whenever the working state is left unspecified. -/
@[simp] theorem Work.free_phase (d : Nat) : (Work.free d).phase = .idle := rfl
@[simp] theorem Work.free_stage (d : Nat) : (Work.free d).stage = none := rfl

end Sys2Proof.Machine
end

