-- ==== Sys2Proof/Laws/Operands.lean ====
section
/-! SUPPORT. What the range check, the operand fetch and the completion answer: one lemma each, cited instead of unfolding
them. -/

namespace Sys2Proof.Machine

/-- The encoder fails with ENCODING and nothing else, 40_utf8_encoder.md R105. -/
theorem encUnit_error (u : CodeUnit) (e : CmdError) (h : encUnit u = .error e) : e = .encoding := by
  unfold encUnit at h
  split at h
  · simp at h
  · split at h
    · simp at h
    · split at h
      · simp at h
      · simpa using h.symm

theorem prepend_error (b r : Except CmdError (List Byte)) (e : CmdError) (h : prepend b r = .error e) :
    b = .error e ∨ r = .error e := by
  cases b <;> cases r <;> simp_all [prepend, Except.bind, Except.map]

theorem utf8Encode_error (t : List CodeUnit) (e : CmdError) (h : utf8Encode t = .error e) : e = .encoding := by
  induction t using utf8Encode.induct with
  | case1 => simp [utf8Encode] at h
  | case2 u => exact encUnit_error u e (by simpa [utf8Encode] using h)
  | case3 u v rest hp ih =>
    rw [utf8Encode, if_pos hp] at h
    rcases prepend_error _ _ _ h with h | h
    · simp at h
    · exact ih h
  | case4 u v rest hp ih =>
    rw [utf8Encode, if_neg hp] at h
    rcases prepend_error _ _ _ h with h | h
    · exact encUnit_error u e h
    · exact ih h

/-- FROMHEX fails with ENCODING and nothing else, 44_hex_codec.md R194. -/
theorem fromHex_error (t : List CodeUnit) (e : CmdError) (h : fromHex t = .error e) : e = .encoding := by
  induction t using fromHex.induct with
  | case1 => simp [fromHex] at h
  | case2 u => simpa [fromHex] using h.symm
  | case3 u v rest hi lo hu hv ih =>
    rw [fromHex, hu, hv] at h
    cases hr : fromHex rest with
    | ok b => simp [hr, Except.map] at h
    | error e' =>
      simp only [hr, Except.map, Except.error.injEq] at h
      exact ih (h ▸ hr)
  | case4 u v rest hn =>
    rw [fromHex] at h
    split at h
    · rename_i hi lo hu hv
      exact absurd hv (hn hi lo hu)
    · simpa using h.symm

/-- The operand fetch answers exactly what the operand stands for, 40_utf8_encoder.md R106. -/
theorem State.fetch_eq_ok (s : State) (space : Space) (n : Nat) (ty : OperandType) (m : List Byte) :
    s.fetch space n ty = .ok m ↔ s.operandIs space n m ty := by
  cases ty with
  | bytes =>
    simp only [State.fetch, State.operandIs, State.holdsBytes, State.holds, Memory.readBytes_eq_ok, Nat.zero_add]
    constructor
    · rintro ⟨h1, h2⟩; exact ⟨h1, fun k hk => h2 k (h1 ▸ hk)⟩
    · rintro ⟨h1, h2⟩; exact ⟨h1, fun k hk => h2 k (h1 ▸ hk)⟩
  | text =>
    simp only [State.fetch, State.operandIs]
    constructor
    · intro h
      cases hq : (s.buf space).readUnits space 0 n with
      | error e => simp [hq, Except.bind] at h
      | ok t =>
        obtain ⟨h1, h2⟩ := (Memory.readUnits_eq_ok _ _ _ _ _).mp hq
        refine ⟨t, ⟨h1, fun k hk => ?_⟩, ?_⟩
        · have := h2 k (by simpa [h1] using hk)
          simpa using this
        · simp only [hq, Except.bind] at h
          cases hu : utf8Encode t with
          | ok b => simpa [hu, raising] using h
          | error e => simp [hu, raising] at h
    · rintro ⟨t, ⟨h1, h2⟩, h3⟩
      have : (s.buf space).readUnits space 0 n = .ok t :=
        (Memory.readUnits_eq_ok _ _ _ _ _).mpr ⟨h1, fun a ha => by simpa using h2 a (by simpa [h1] using ha)⟩
      rw [this]
      simp [Except.bind, h3, raising]

/-- A text is held exactly when its units are read. -/
theorem State.holdsText_iff (s : State) (space : Space) (n : Nat) (t : List CodeUnit) :
    s.holdsText space n t ↔ (s.buf space).readUnits space 0 n = .ok t := by
  rw [Memory.readUnits_eq_ok]
  simp only [State.holdsText, State.holds, textImage_length, Nat.mul_zero, Nat.zero_add]
  constructor
  · rintro ⟨h1, h2⟩; exact ⟨h1, fun k hk => h2 k (h1 ▸ hk)⟩
  · rintro ⟨h1, h2⟩; exact ⟨h1, fun k hk => h2 k (h1 ▸ hk)⟩

/-- The operand fetch raises ENCODING exactly on a text with an unpaired surrogate, R105 and R106. -/
theorem State.fetch_raise (s : State) (space : Space) (n : Nat) (ty : OperandType) (e : CmdError) :
    s.fetch space n ty = .error (.raise e) ↔
      ty = .text ∧ e = .encoding ∧ ∃ t, s.holdsText space n t ∧ utf8Encode t = .error .encoding := by
  cases ty with
  | bytes =>
    simp only [reduceCtorEq, false_and, iff_false, State.fetch]
    intro h
    obtain ⟨x, -, -, -, hx⟩ := Memory.readBytes_error _ _ _ _ _ h
    simp at hx
  | text =>
    simp only [State.fetch, State.holdsText_iff, true_and]
    constructor
    · intro h
      cases hq : (s.buf space).readUnits space 0 n with
      | error e' =>
        obtain ⟨x, -, -, -, hx⟩ := Memory.readUnits_error _ _ _ _ _ hq
        simp [hq, Except.bind, hx] at h
      | ok t =>
        simp only [hq, Except.bind] at h
        cases hu : utf8Encode t with
        | ok b => simp [hu, raising] at h
        | error e' =>
          have he := utf8Encode_error t e' hu
          subst he
          simp only [hu, raising, Except.error.injEq, Halt.raise.injEq] at h
          exact ⟨h.symm, t, rfl, hu⟩
    · rintro ⟨rfl, t, hq, hu⟩
      rw [hq]
      simp [Except.bind, hu, raising]

/-- The operand fetch stops only at an operand byte that holds no value, 10_state.md R40. -/
theorem State.fetch_unwritten (s : State) (space sp : Space) (n x : Nat) (ty : OperandType)
    (h : s.fetch space n ty = .error (.unwritten sp x)) :
    sp = space ∧ x < bytesOf ty n ∧ (s.buf space).read x = none := by
  cases ty with
  | bytes =>
    obtain ⟨y, -, h2, h3, h4⟩ := Memory.readBytes_error _ _ _ _ _ h
    simp only [Halt.unwritten.injEq] at h4
    obtain ⟨rfl, rfl⟩ := h4
    exact ⟨rfl, by simpa [bytesOf] using h2, h3⟩
  | text =>
    simp only [State.fetch] at h
    cases hq : (s.buf space).readUnits space 0 n with
    | ok t =>
      simp only [hq, Except.bind] at h
      cases hu : utf8Encode t <;> simp [hu, raising] at h
    | error e =>
      simp only [hq, Except.bind, Except.error.injEq] at h
      subst h
      obtain ⟨y, -, h2, h3, h4⟩ := Memory.readUnits_error _ _ _ _ _ hq
      simp only [Halt.unwritten.injEq] at h4
      obtain ⟨rfl, rfl⟩ := h4
      exact ⟨rfl, by simpa [bytesOf] using h2, h3⟩

/-- An operand byte without a value stops the fetch, 10_state.md R40. -/
theorem State.fetch_of_unwritten (s : State) (space : Space) (n x : Nat) (ty : OperandType)
    (hx : x < bytesOf ty n) (hr : (s.buf space).read x = none) :
    ∃ y, s.fetch space n ty = .error (.unwritten space y) := by
  cases hq : s.fetch space n ty with
  | ok m =>
    exfalso
    have h := (State.fetch_eq_ok s space n ty m).mp hq
    cases ty with
    | bytes =>
      obtain ⟨h1, h2⟩ := h
      have hx' : x < m.length := by simpa [h1, bytesOf] using hx
      have := h2 x hx'
      rw [hr, List.getElem?_eq_getElem hx'] at this
      simp at this
    | text =>
      obtain ⟨t, ⟨h1, h2⟩, -⟩ := h
      have hx' : x < (textImage t).length := by simpa [h1, bytesOf] using hx
      have := h2 x hx'
      rw [hr, List.getElem?_eq_getElem hx'] at this
      simp at this
  | error e =>
    cases e with
    | unwritten sp y =>
      obtain ⟨rfl, -, -⟩ := State.fetch_unwritten s space sp n y ty hq
      exact ⟨y, rfl⟩
    | raise e =>
      exfalso
      obtain ⟨rfl, -, t, ⟨h1, h2⟩, -⟩ := (State.fetch_raise s space n ty e).mp hq
      have hx' : x < (textImage t).length := by simpa [h1, bytesOf] using hx
      have := h2 x hx'
      rw [hr, List.getElem?_eq_getElem hx'] at this
      simp at this

/-- The range check, 20_memory.md R62. -/
theorem State.inRange_pos {α : Type} (s : State) (space : Space) (ty : OperandType) (len : Word) (k : Except Halt α)
    (h : bytesOf ty len.toNat ≤ s.cfg.cap space) : s.inRange space ty len k = k := if_pos h

theorem State.inRange_neg {α : Type} (s : State) (space : Space) (ty : OperandType) (len : Word) (k : Except Halt α)
    (h : ¬bytesOf ty len.toNat ≤ s.cfg.cap space) :
    s.inRange space ty len k = .error (.raise .operandRange) := if_neg h

/-- STATUS after success is `0x00000002`, 46_host_access.md R307. -/
@[simp] theorem statusOk_eq : statusOk = 0x00000002 := by decide

/-- STATUS after issue is `0x00000001`, 46_host_access.md R306 and R308. -/
@[simp] theorem statusIssued_eq : statusIssued = 0x00000001 := by decide

/-- The frame of the free working state. -/
theorem sameAround_of (s t : State) (h1 : t.cfg = s.cfg) (h2 : t.cmd = s.cmd) (h3 : t.srcLen = s.srcLen)
    (h4 : t.keyLen = s.keyLen) (h5 : t.src = s.src) (h6 : t.key = s.key) (h7 : t.turns = s.turns)
    (h8 : t.replies = s.replies) (h9 : t.resets = s.resets) (h10 : t.work = Work.free s.draws) : SameAround s t :=
  ⟨h1, h2, h3, h4, h5, h6, h7, h8, h9, by rw [h10]; exact ⟨rfl, rfl⟩⟩

/-- The error entry leaves what 60_exceptions.md R226 says. -/
theorem State.errorEntry_failure (s : State) (e : CmdError) : FailureOf s (s.errorEntry e) e.code.toNat :=
  ⟨by cases e <;> rfl, rfl, rfl, sameAround_of s _ rfl rfl rfl rfl rfl rfl rfl rfl rfl rfl⟩

/-- A successful completion leaves what 46_host_access.md R307 says. -/
theorem State.succeed_success (s : State) (r : Result) : SuccessOf s (s.succeed r) r.image r.count where
  status := by simp
  dstLen := rfl
  stored := by
    intro k hk
    show (s.dst.writeBytes 0 r.image).read k = _
    rw [Memory.read_writeBytes, if_pos ⟨by omega, by omega⟩, Nat.sub_zero]
  beyond := by
    intro a ha
    show (s.dst.writeBytes 0 r.image).read a = _
    rw [Memory.read_writeBytes, if_neg (by omega)]
  around := sameAround_of s _ rfl rfl rfl rfl rfl rfl rfl rfl rfl rfl

/-- Everything a completion can do: store a result that fits, or enter an error. -/
theorem State.complete_next (s t : State) (r : Except Halt Result) (h : s.complete r = .next t) :
    (∃ res, r = .ok res ∧ bytesOf res.type res.count ≤ s.cfg.dstCap ∧ t = s.succeed res) ∨
    (∃ res, r = .ok res ∧ ¬bytesOf res.type res.count ≤ s.cfg.dstCap ∧ t = s.errorEntry .operandRange) ∨
    (∃ e, r = .error (.raise e) ∧ t = s.errorEntry e) := by
  match r with
  | .ok res =>
    simp only [State.complete, Host.Outcome.next.injEq] at h
    by_cases hf : bytesOf res.type res.count ≤ s.cfg.dstCap
    · exact .inl ⟨res, rfl, hf, by rw [if_pos hf] at h; exact h.symm⟩
    · exact .inr (.inl ⟨res, rfl, hf, by rw [if_neg hf] at h; exact h.symm⟩)
  | .error (.raise e) =>
    simp only [State.complete, Host.Outcome.next.injEq] at h
    exact .inr (.inr ⟨e, rfl, h.symm⟩)
  | .error (.unwritten sp a) => simp [State.complete] at h

/-- A completion never faults, and is refused exactly where evaluation met a byte without a value. -/
theorem State.complete_fault (s : State) (r : Except Halt Result) (f : Fault) : s.complete r ≠ .fault f := by
  match r with
  | .ok res => simp [State.complete]
  | .error (.raise e) => simp [State.complete]
  | .error (.unwritten sp a) => simp [State.complete]

theorem State.complete_refused (s : State) (r : Except Halt Result) (q : Refusal) (h : s.complete r = .refused q) :
    ∃ sp a, r = .error (.unwritten sp a) ∧ q = .unwrittenOperandByte sp a := by
  match r with
  | .ok res => simp [State.complete] at h
  | .error (.raise e) => simp [State.complete] at h
  | .error (.unwritten sp a) =>
    simp only [State.complete, Host.Outcome.refused.injEq] at h
    exact ⟨sp, a, rfl, h.symm⟩

/-- The bytes a result occupies are as many as R51 counts. -/
theorem Result.image_length (r : Result) : r.image.length = bytesOf r.type r.count := by
  cases r <;> simp [Result.image, Result.type, Result.count, bytesOf]

end Sys2Proof.Machine
end

