-- ==== Sys2Proof/Laws/PerInstr.lean ====
section
/-! SUPPORT. Statements made for every instruction as syntax, one lemma per constructor. -/

namespace Sys2Proof.Laws

/-- The fields read from an instruction's word are the instruction's fields, and they are well formed (spec/30_encoding.md
R75 to R77). -/
def FieldsReadBack.Statement (i : Instr) : Prop := i.wellFormed = true ∧ fieldsOf (encode i) = i.fields

theorem FieldsReadBack.utf8enc : FieldsReadBack.Statement .utf8enc := ⟨rfl, rfl⟩

theorem FieldsReadBack.md5 (tm : OperandType) : FieldsReadBack.Statement (.md5 tm) := by
  cases tm <;> exact ⟨rfl, rfl⟩

theorem FieldsReadBack.sha1 (tm : OperandType) : FieldsReadBack.Statement (.sha1 tm) := by
  cases tm <;> exact ⟨rfl, rfl⟩

theorem FieldsReadBack.hmacsha1 (tm tk : OperandType) : FieldsReadBack.Statement (.hmacsha1 tm tk) := by
  cases tm <;> cases tk <;> exact ⟨rfl, rfl⟩

theorem FieldsReadBack.tohex : FieldsReadBack.Statement .tohex := ⟨rfl, rfl⟩

theorem FieldsReadBack.fromhex : FieldsReadBack.Statement .fromhex := ⟨rfl, rfl⟩

theorem FieldsReadBack.tobase64 : FieldsReadBack.Statement .tobase64 := ⟨rfl, rfl⟩

end Sys2Proof.Laws
end

