-- ==== Sys2Proof/Laws/Step.lean ====
section
/-! SUPPORT. The step as what it does with the head of the turn list, the completion as one evaluation, and a run of several
steps. -/

namespace Sys2Proof.Machine

/-- A run whose first step goes on. -/
theorem run_of_next (M : Host.Core) (k : Nat) (s t : M.State) (h : M.step s = .next t) : M.run (k + 1) s = M.run k t := by
  simp [Host.Core.run, h]

/-- The same, for this machine. -/
theorem core_run_of_next (k : Nat) (s t : State) (h : step s = .next t) :
    Sys2Proof.core.run (k + 1) s = Sys2Proof.core.run k t := run_of_next Sys2Proof.core k s t h

theorem step_of_nil (s : State) (h : s.turns = []) : step s = s.engineTurn := by
  simp only [step, State.takeTurn, h]

theorem step_of_engine (s : State) (rest : List Turn) (h : s.turns = .engine :: rest) :
    step s = State.engineTurn { s with turns := rest } := by
  simp only [step, State.takeTurn, h]

theorem step_of_reset (s : State) (rest : List Turn) (h : s.turns = .reset :: rest) :
    step s = .next (State.resetEvent { s with turns := rest }) := by
  simp only [step, State.takeTurn, h]

theorem State.engineTurn_busy (s : State) (h : s.busy = true) : s.engineTurn = s.completePending := if_pos h

theorem State.engineTurn_idle (s : State) (h : s.busy = false) : s.engineTurn = .next s := if_neg (by simp [h])

/-- What a command evaluates to, 46_host_access.md R310: the argument its meaning gives the completion. -/
def evaluate (i : Instr) : State → Except Halt Result :=
  match i with
  | .utf8enc => resultUtf8enc
  | .md5 tm => resultMd5 tm
  | .sha1 tm => resultSha1 tm
  | .hmacsha1 tm tk => resultHmacsha1 tm tk
  | .tohex => resultTohex
  | .fromhex => resultFromhex
  | .tobase64 => resultTobase64

/-- Every meaning is a completion of its evaluation, 46_host_access.md R307. -/
theorem exec_eq_complete (i : Instr) (s : State) : exec i s = s.complete (evaluate i s) := by cases i <;> rfl

/-- The completion step as one completion, legal word or not, 46_host_access.md R307. -/
theorem State.completePending_eq (s : State) : s.completePending =
    s.complete (match decode s.cmd with | .ok i => evaluate i s | .error _ => .error (.raise .illegalCmd)) := by
  unfold State.completePending
  cases decode s.cmd with
  | ok i => exact exec_eq_complete i s
  | error e => rfl

/-- The source operand is fetched where it fits and is sound. -/
theorem State.source_of_operandIs (s : State) (ty : OperandType) (m : List Byte)
    (hf : bytesOf ty s.srcLen.toNat ≤ s.cfg.srcCap) (h : s.operandIs .src s.srcLen.toNat m ty) : s.source ty = .ok m := by
  unfold State.source
  rw [State.inRange_pos _ _ _ _ _ hf, (State.fetch_eq_ok _ _ _ _ _).mpr h]

/-- Everything the fetch of a source operand can answer. -/
theorem State.source_cases (s : State) (ty : OperandType) :
    (∃ m, s.source ty = .ok m ∧ bytesOf ty s.srcLen.toNat ≤ s.cfg.srcCap ∧ s.operandIs .src s.srcLen.toNat m ty) ∨
    (s.source ty = .error (.raise .operandRange) ∧ ¬bytesOf ty s.srcLen.toNat ≤ s.cfg.srcCap) ∨
    (s.source ty = .error (.raise .encoding) ∧ ty = .text) ∨
    (∃ x, s.source ty = .error (.unwritten .src x) ∧ x < bytesOf ty s.srcLen.toNat ∧ s.src.read x = none ∧
      bytesOf ty s.srcLen.toNat ≤ s.cfg.srcCap) := by
  by_cases hf : bytesOf ty s.srcLen.toNat ≤ s.cfg.srcCap
  · have he : s.source ty = s.fetch .src s.srcLen.toNat ty := State.inRange_pos s .src ty s.srcLen _ hf
    rw [he]
    cases hq : s.fetch .src s.srcLen.toNat ty with
    | ok m => exact .inl ⟨m, rfl, hf, (State.fetch_eq_ok _ _ _ _ _).mp hq⟩
    | error e =>
      cases e with
      | raise e =>
        obtain ⟨h1, rfl, -⟩ := (State.fetch_raise _ _ _ _ _).mp hq
        exact .inr (.inr (.inl ⟨rfl, h1⟩))
      | unwritten sp x =>
        obtain ⟨rfl, h2, h3⟩ := State.fetch_unwritten _ _ _ _ _ _ hq
        exact .inr (.inr (.inr ⟨x, rfl, h2, h3, hf⟩))
  · exact .inr (.inl ⟨State.inRange_neg s .src ty s.srcLen _ hf, hf⟩)

end Sys2Proof.Machine
end

