-- ==== Sys2Proof/Tests/Slice0.lean ====
section
/-! SUPPORT. The model's own tests: ill-formed terms refused, words written out from the spec's encoding, the spec's test
vectors (spec/95_test_vectors.md), and for every statement with hypotheses a state that meets them. -/

namespace Sys2Proof.Tests

open Sys2Proof Sys2Proof.Machine

/-! ### Helpers -/

/-- An instance with these capacities. -/
def caps (src key dst : Nat) : Config :=
  { srcCap := src, keyCap := key, dstCap := dst, regBase := 0, srcBase := 0, keyBase := 0, dstBase := 0 }

/-- A buffer holding these bytes from address 0 on. -/
def fill (b : List Byte) : Memory := b.zipIdx.map fun p => (p.2, p.1)

/-- A reset instance whose host has written these operands and lengths. -/
def given (cfg : Config) (src : List Byte) (n : Word) (key : List Byte) (k : Word) : State :=
  { State.resetWith cfg with src := fill src, srcLen := n, key := fill key, keyLen := k }

/-- The `len` bytes a hexadecimal numeral writes, first byte first, as 95_test_vectors.md writes byte strings. -/
def hexBytes (len n : Nat) : List Byte := (List.range len).map fun t => BitVec.ofNat 8 (n / 2 ^ (8 * (len - 1 - t)))

/-- The code units of a text. -/
def ascii (t : String) : List CodeUnit := utf16 t

/-- The outcome is a next state with this STATUS and DST_LEN and these bytes in DST. -/
def ends (o : Host.Outcome State Fault Refusal) (status dstLen : Word) (dst : List Byte) : Bool :=
  match o with
  | .next t => t.status == status && t.dstLen == dstLen &&
      (List.range dst.length).all fun a => t.dst.read a == dst[a]?
  | .fault _ => false
  | .refused _ => false

/-- The bytes 00, 01, ..., n - 1. -/
def counting (n : Nat) : List Byte := (List.range n).map fun x => BitVec.ofNat 8 x

/-! ### Well-formedness: one ill-formed term for each check -/

theorem test_wf_legal : ({ op := 0x04, tm := true, tk := true, reserved := 0 } : CmdFields).wellFormed = true := by decide

theorem test_wf_reserved_refused : ({ op := 0x02, tm := false, tk := false, reserved := 1 } : CmdFields).reservedZero = false ∧
    ({ op := 0x02, tm := false, tk := false, reserved := 1 } : CmdFields).wellFormed = false := by decide

theorem test_wf_op_refused : ({ op := 0x08, tm := false, tk := false, reserved := 0 } : CmdFields).opAssigned = false ∧
    ({ op := 0x00, tm := false, tk := false, reserved := 0 } : CmdFields).wellFormed = false := by decide

theorem test_wf_tm_refused : ({ op := 0x01, tm := true, tk := false, reserved := 0 } : CmdFields).tmAllowed = false ∧
    ({ op := 0x01, tm := true, tk := false, reserved := 0 } : CmdFields).wellFormed = false := by decide

theorem test_wf_tk_refused : ({ op := 0x02, tm := false, tk := true, reserved := 0 } : CmdFields).tkAllowed = false ∧
    ({ op := 0x02, tm := false, tk := true, reserved := 0 } : CmdFields).wellFormed = false := by decide

theorem test_wf_address_refused : (HostAction.readBuf .src 64).wellFormed (caps 64 64 32) = false ∧
    (HostAction.readBuf .src 63).wellFormed (caps 64 64 32) = true ∧
    (Turn.host (.writeBuf .dst 32 0)).wellFormed (caps 64 64 32) = false := by decide

/-! ### Decoding: words written from the format of 30_encoding.md R75 -/

theorem test_decode_utf8enc : decode 0x00000001 = .ok .utf8enc := by decide
theorem test_decode_md5 : decode 0x00000002 = .ok (.md5 .bytes) ∧ decode 0x00000102 = .ok (.md5 .text) := by decide
theorem test_decode_sha1 : decode 0x00000003 = .ok (.sha1 .bytes) ∧ decode 0x00000103 = .ok (.sha1 .text) := by decide
theorem test_decode_hmacsha1 : decode 0x00000104 = .ok (.hmacsha1 .text .bytes) ∧
    decode 0x00000204 = .ok (.hmacsha1 .bytes .text) := by decide
theorem test_decode_tohex : decode 0x00000005 = .ok .tohex := by decide
theorem test_decode_fromhex : decode 0x00000006 = .ok .fromhex := by decide
theorem test_decode_tobase64 : decode 0x00000007 = .ok .tobase64 := by decide

/-- V33: the illegal words. -/
theorem test_decode_illegal :
    decode 0x00000000 = .error .opZero ∧ decode 0x00000008 = .error .opBase64Decoder ∧
    decode 0x00000009 = .error .opUnassigned ∧ decode 0x000000FF = .error .opUnassigned ∧
    decode 0x00000101 = .error .typeBitSet ∧ decode 0x00000202 = .error .typeBitSet ∧
    decode 0x00000303 = .error .typeBitSet ∧ decode 0x00000105 = .error .typeBitSet ∧
    decode 0x00000206 = .error .typeBitSet ∧ decode 0x00000107 = .error .typeBitSet ∧
    decode 0x00000402 = .error .reservedBitSet ∧ decode 0x80000004 = .error .reservedBitSet := by decide

/-- The spellings of 30_encoding.md R82. -/
theorem test_spelling : Instr.spelling (.hmacsha1 .bytes .text) = "HMACSHA1.BT" ∧ Instr.spelling (.md5 .text) = "MD5.T" := by
  decide

/-- The register numbers and offsets of 10_state.md R22. -/
theorem test_register_offsets : [Reg.cmd, .status, .srcLen, .keyLen, .dstLen].map Reg.offset = [0, 4, 8, 12, 16] := by decide

/-! ### Arithmetic, padding and traces: V11 to V16, V23 -/

theorem test_v11_words : (0xffffffff : Word) + 1 = 0 ∧ (0x67452301 : Word) + 0xefcdab89 = 0x5712ce8a ∧
    rotl 0x80000001 1 = 0x00000003 ∧ rotl 0x12345678 30 = 0x048d159e ∧ rotl 0x00000001 31 = 0x80000000 := by decide

theorem test_v11_functions : md5F 0 0xefcdab89 0x98badcfe 0x10325476 = 0x98badcfe ∧
    md5F 16 0xefcdab89 0x98badcfe 0x10325476 = 0x88888888 ∧ md5F 32 0xefcdab89 0x98badcfe 0x10325476 = 0x67452301 ∧
    md5F 48 0xefcdab89 0x98badcfe 0x10325476 = 0x77777777 ∧
    sha1F 40 0xefcdab89 0x98badcfe 0x10325476 = 0x98badcfe := by decide

theorem test_v12_padding :
    pad [0x61, 0x62, 0x63] .le = hexBytes 4 0x61626380 ++ List.replicate 52 0 ++ hexBytes 8 0x1800000000000000 ∧
    pad [0x61, 0x62, 0x63] .be = hexBytes 4 0x61626380 ++ List.replicate 52 0 ++ hexBytes 8 0x18 := by decide +kernel

/-- V13: the MD5 registers after rounds 0, 16 and 47 on "abc". -/
theorem test_v13_rounds :
    (List.range 1).foldl (md5Round (md5Words (pad [0x61, 0x62, 0x63] .le))) md5Iv =
      ⟨0x10325476, 0xd6d117b4, 0xefcdab89, 0x98badcfe⟩ ∧
    (List.range 17).foldl (md5Round (md5Words (pad [0x61, 0x62, 0x63] .le))) md5Iv =
      ⟨0xa1051895, 0x3e9e9126, 0x72aff2e0, 0xe396856b⟩ ∧
    (List.range 48).foldl (md5Round (md5Words (pad [0x61, 0x62, 0x63] .le))) md5Iv =
      ⟨0x7f2e507b, 0x7beb9700, 0x8fae6399, 0x99d9679d⟩ := by decide +kernel

/-- V15: schedule words 16, 18, 19 and 79 on "abc". -/
theorem test_v15_schedule : [16, 18, 19, 79].map (fun q => (sha1Schedule (pad [0x61, 0x62, 0x63] .be)).getD q 0) =
    [0xc2c4c700, 0x00000030, 0x85898e01, 0x822e0879] := by decide +kernel

/-- V15: the SHA-1 registers after rounds 0, 20 and 60 on "abc". -/
theorem test_v15_rounds :
    (List.range 1).foldl (sha1Round (sha1Schedule (pad [0x61, 0x62, 0x63] .be))) sha1Iv =
      ⟨0x0116fc33, 0x67452301, 0x7bf36ae2, 0x98badcfe, 0x10325476⟩ ∧
    (List.range 21).foldl (sha1Round (sha1Schedule (pad [0x61, 0x62, 0x63] .be))) sha1Iv =
      ⟨0x1a37b0ca, 0xfd9e1d7d, 0x77192407, 0x20aa99ca, 0xd3a49608⟩ ∧
    (List.range 61).foldl (sha1Round (sha1Schedule (pad [0x61, 0x62, 0x63] .be))) sha1Iv =
      ⟨0xd756c147, 0x3f52de5a, 0x4275e17f, 0x3498bfd4, 0xf211824f⟩ := by decide +kernel

/-- V23: the two pads of the key "key". -/
theorem test_v23_pads : ipad (normKey [0x6b, 0x65, 0x79]) = [0x5d, 0x53, 0x4f] ++ List.replicate 61 0x36 ∧
    opad (normKey [0x6b, 0x65, 0x79]) = [0x37, 0x39, 0x25] ++ List.replicate 61 0x5c := by decide +kernel

/-! ### The commands, two tests each -/

/-- V20, last row: one, two, three and four bytes in one text. -/
theorem test_utf8enc_accepts : ends
    (exec .utf8enc (given (caps 64 64 32) (textImage [0x0061, 0x00E9, 0x20AC, 0xD83D, 0xDE00, 0x007A]) 6 [] 0))
    0x00000002 11 [0x61, 0xc3, 0xa9, 0xe2, 0x82, 0xac, 0xf0, 0x9f, 0x98, 0x80, 0x7a] = true := by decide +kernel

/-- V34: 11 units 20AC, then an unpaired D800: ENCODING, before the range of the result is looked at. -/
theorem test_utf8enc_rejects : ends
    (exec .utf8enc (given (caps 64 64 32) (textImage (List.replicate 11 0x20AC ++ [0xD800])) 12 [] 0))
    0x00000012 0 [] = true := by decide +kernel

/-- V18, n = 56: two blocks, every byte of the message different. -/
theorem test_md5_two_blocks : ends (exec (.md5 .bytes) (given (caps 64 64 32) (counting 56) 56 [] 0))
    0x00000002 16 (hexBytes 16 0x51fdd1acda72405dfdfa03fcb85896d7) = true := by decide +kernel

/-- V22: units 00E9 20AC. -/
theorem test_md5_text : ends (exec (.md5 .text) (given (caps 64 64 32) (textImage [0x00E9, 0x20AC]) 2 [] 0))
    0x00000002 16 (hexBytes 16 0xd75285edbed0b771f00bbaefc623c709) = true := by decide +kernel

/-- V18, n = 64. -/
theorem test_sha1_two_blocks : ends (exec (.sha1 .bytes) (given (caps 64 64 32) (counting 64) 64 [] 0))
    0x00000002 20 (hexBytes 20 0xc6138d514ffa2135bfce0ed0b8fac65669917ec7) = true := by decide +kernel

/-- V34: a digest does not fit a DST of 16 bytes. -/
theorem test_sha1_range : ends (exec (.sha1 .bytes) (given (caps 64 64 16) [0x61, 0x62, 0x63] 3 [] 0)) 0x00000042 0 [] = true := by
  decide +kernel

/-- V27: a key of 65 bytes is hashed first. -/
theorem test_hmacsha1_long_key : ends
    (exec (.hmacsha1 .bytes .bytes) (given (caps 256 256 256) [0x61, 0x62, 0x63] 3 (counting 65) 65))
    0x00000002 20 (hexBytes 20 0x7636c08e7b7c0f0c391ca01d34ef4208399fbcf8) = true := by decide +kernel

/-- V28: message bytes, key text of 32 units 00E9, which are 64 bytes and are not hashed. -/
theorem test_hmacsha1_text_key : ends
    (exec (.hmacsha1 .bytes .text)
      (given (caps 256 256 256) [0x61, 0x62, 0x63] 3 (textImage (List.replicate 32 0x00E9)) 32))
    0x00000002 20 (hexBytes 20 0xe3beaab75f73b121b2d5e9af4ddede4443e57622) = true := by decide +kernel

/-- V29: `05a9ff`. -/
theorem test_tohex_digits : ends (exec .tohex (given (caps 64 64 32) [0x05, 0xa9, 0xff] 3 [] 0)) 0x00000002 6
    [0x30, 0x00, 0x35, 0x00, 0x61, 0x00, 0x39, 0x00, 0x66, 0x00, 0x66, 0x00] = true := by decide +kernel

/-- V34: nine bytes need 36 bytes of DST. -/
theorem test_tohex_range : ends (exec .tohex (given (caps 64 64 32) (counting 9) 9 [] 0)) 0x00000042 0 [] = true := by
  decide +kernel

/-- V30: `0aFf10`. -/
theorem test_fromhex_accepts : ends (exec .fromhex (given (caps 64 64 32) (textImage (ascii "0aFf10")) 6 [] 0))
    0x00000002 3 [0x0a, 0xff, 0x10] = true := by decide +kernel

/-- V31: units 0130 0035, whose low bytes alone would be digits. -/
theorem test_fromhex_rejects : ends (exec .fromhex (given (caps 64 64 32) (textImage [0x0130, 0x0035]) 2 [] 0))
    0x00000012 0 [] = true := by decide +kernel

/-- V32: `FPucA9l+`. -/
theorem test_tobase64_groups : ends
    (exec .tobase64 (given (caps 64 64 32) [0x14, 0xfb, 0x9c, 0x03, 0xd9, 0x7e] 6 [] 0))
    0x00000002 8 (textImage (ascii "FPucA9l+")) = true := by decide +kernel

/-- V32: `/w==`. -/
theorem test_tobase64_pads : ends (exec .tobase64 (given (caps 64 64 32) [0xff] 1 [] 0))
    0x00000002 4 (textImage (ascii "/w==")) = true := by decide +kernel

/-! ### The step and the host -/

/-- The first command after reset, placed by `withFetchWord`: MD5.B of nothing (V1). -/
theorem test_first_command_after_reset : ends (step (State.reset.withFetchWord 32 0x00000002))
    0x00000002 16 (hexBytes 16 0xd41d8cd98f00b204e9800998ecf8427e) = true := by decide +kernel

/-- V33: a word with reserved bit 31 set. -/
theorem test_illegal_command : ends (step (State.reset.withFetchWord 32 0x80000004)) 0x00000032 0 [] = true := by
  decide +kernel

/-- V35: a write of SRC_LEN while busy is ignored. -/
theorem test_busy_write_ignored :
    (match hostAccess (.writeReg .srcLen 5) (State.reset.issue 0x00000002) with
      | .next t => t.srcLen == 0 && t.cmd == 0x00000002 && t.status == 0x00000001
      | .fault _ => false
      | .refused _ => false) = true := by decide +kernel

/-- 10_state.md R40: a command that reads a byte nothing has written is refused. -/
theorem test_unwritten_refused :
    (match exec .tohex (given (caps 64 64 32) [0x05] 2 [] 0) with
      | .next _ => false
      | .fault _ => false
      | .refused r => r == .unwrittenOperandByte .src 1) = true := by decide +kernel

/-! ### Host programs, 30_encoding.md R83 -/

/-- P1: the accesses `SRC <- text("abc")` stands for, as 95_test_vectors.md writes them out. -/
theorem test_p1_accesses : loadText .src "abc" =
    [.writeBuf .src 0 0x61, .writeBuf .src 1 0x00, .writeBuf .src 2 0x62, .writeBuf .src 3 0x00,
     .writeBuf .src 4 0x63, .writeBuf .src 5 0x00, .writeReg .srcLen 3] := by decide

/-- The UTF-16 code units of V20's last row, a surrogate pair among them. -/
theorem test_utf16_pair : [0x00E9, 0x20AC, 0x1F600].flatMap (fun n => charUnits (Char.ofNat n)) =
    [0x00E9, 0x20AC, 0xD83D, 0xDE00] := by decide

/-- A finished program part of which this holds. -/
def finishedWith {α : Type} (o : ProgramOutcome α) (p : α → State → Bool) : Bool :=
  match o with
  | .finished a _ t => p a t
  | .waiting _ => false
  | .fault _ => false
  | .refused _ => false

/-- `WAIT` reads STATUS = 0x00000001 while the engine has not moved, then 0x00000002, and stops (P1); with the engine moving
at once it reads once. -/
theorem test_wait_polls :
    finishedWith (waitDone [false, false, true, false] ((given (caps 64 64 32) [0xff] 1 [] 0).issue 0x00000005)) (fun v t =>
      v == 0x00000002 && t.replies == [.reg .status 0x00000002, .reg .status 0x00000001, .reg .status 0x00000001]) = true ∧
    finishedWith (waitDone [] ((given (caps 64 64 32) [0xff] 1 [] 0).issue 0x00000005)) (fun _ t =>
      t.replies == [.reg .status 0x00000002]) = true := by decide +kernel

/-- `WAIT` right after reset, with no command issued, does not end. -/
theorem test_wait_without_command :
    (match waitDone [false] (State.resetWith (caps 64 64 32)) with
      | .finished _ _ _ => false
      | .waiting t => t.status == 0
      | .fault _ => false
      | .refused _ => false) = true := by decide +kernel

/-- P3: `SRC <- DST` after FROMHEX, here of a two-byte result; DST_LEN is read first. -/
theorem test_copy_result :
    finishedWith (copyResult .src [] { State.resetWith (caps 64 64 32) with
        cmd := 0x00000006, dst := fill [0x0a, 0xff], dstLen := 2 }) (fun _ t =>
      t.src == fill [0x0a, 0xff] && t.srcLen == 2 &&
        t.replies == [.buf .dst 1 0xff, .buf .dst 0 0x0a, .reg .dstLen 2]) = true := by decide +kernel

/-- A write of CMD that is ignored because a command is pending (46_host_access.md R308) does not change the type of the result
that `SRC <- DST` copies: one byte of a DST of one byte, and not two. -/
theorem test_copy_after_ignored_command :
    finishedWith (runProgram [.command .fromhex, .action (.writeReg .cmd 0x00000005), .wait, .copyDst .src] [false, false]
        (given (caps 4 0 1) (textImage (ascii "0a")) 2 [] 0)) (fun _ t =>
      t.cmd == 0x00000006 && t.srcLen == 1 && t.src.read 0 == some 0x0a) = true := by decide +kernel

/-- `toHex` of the byte 5 is the text "05" (V10), and `fromHex` of "abc" fails with ENCODING (V31), as calls (46_host_access.md
R311). -/
theorem test_calls :
    finishedWith (Call.run (.toHex [0x05]) [] (State.resetWith (caps 64 64 32))) (fun y _ =>
      match y with
      | .ok r => r == .text (ascii "05")
      | .error _ => false) = true ∧
    finishedWith (Call.run (.fromHex (ascii "abc")) [] (State.resetWith (caps 64 64 32))) (fun y t =>
      match y with
      | .ok _ => false
      | .error e => e == 1 && t.replies == [.reg .status 0x00000012]) = true := by decide +kernel

/-! ### Witnesses: states and operands that meet the hypotheses of each statement, clause by clause -/

/-- A capacity check decided on numerals. -/
theorem holds_iff (s : State) (space : Space) (b : List Byte) :
    s.holds space b ↔ ∀ k, k < b.length → (s.buf space).read k = b[k]? := Iff.rfl

theorem test_witness_TableRowSelectsTheCommand :
    decode 0x00000304 = .ok (.hmacsha1 .text .text) ∧ decode 0x00000007 = .ok .tobase64 ∧
    (∀ row ∈ opcodeTable, (0x00000008 : Word) &&& row.mask ≠ row.pattern) := by decide

/-- A pending SHA1.B with the engine to move, listed and unlisted. -/
theorem test_witness_StepRunsTheDecodedCommand :
    (State.reset.issue 0x00000003).busy = true ∧ decode (State.reset.issue 0x00000003).cmd = .ok (.sha1 .bytes) ∧
    (State.reset.issue 0x00000003).turns = [] ∧
    (State.reset.placeCommand 0x00000003).busy = true ∧ (State.reset.placeCommand 0x00000003).turns = [.engine] := by decide

/-- A pending illegal word with the engine to move, unlisted and listed. -/
theorem test_witness_IllegalWordEndsWithIllegalCmd :
    (State.reset.issue 0x00000008).busy = true ∧ (State.reset.issue 0x00000008).turns = [] ∧
    (State.reset.placeCommand 0x80000004).busy = true ∧ (State.reset.placeCommand 0x80000004).turns = .engine :: [] ∧
    ∀ w ∈ [(State.reset.issue 0x00000008).cmd, (State.reset.placeCommand 0x80000004).cmd],
      w ∉ [(0x00000001 : Word), 0x00000002, 0x00000102, 0x00000003, 0x00000103, 0x00000004, 0x00000104, 0x00000204,
        0x00000304, 0x00000005, 0x00000006, 0x00000007] := by
  refine ⟨by decide, by decide, by decide, by decide, ?_⟩
  simp [State.issue, State.placeCommand]

theorem test_witness_IdleEngineHoldsItsState :
    State.reset.busy = false ∧ State.reset.turns = [] ∧
    ({ State.reset with turns := [.engine, .reset] } : State).turns = .engine :: [.reset] := by decide

/-- The two stops occur: an address that does not exist, and an operand byte without a value. -/
theorem test_witness_StepStopsOnlyByTheTwoNames :
    (match step { given (caps 64 64 32) [] 0 [] 0 with turns := [.host (.readBuf .dst 32)] } with
      | .next _ => false
      | .fault f => f == .addressOutsideBuffer .dst 32
      | .refused _ => false) = true ∧
    (match step ((given (caps 64 64 32) [0x61] 2 [] 0).issue 0x00000002) with
      | .next _ => false
      | .fault _ => false
      | .refused r => r == .unwrittenOperandByte .src 1) = true := by decide +kernel

/-- A pending HMACSHA1.BB whose operands have been written, with a host access at the last address before the engine's
turn. -/
theorem test_witness_CorrectHostNeverStops :
    ∃ s : State, s.turns = [.host (.readBuf .dst 31), .engine] ∧ (∀ turn ∈ s.turns, turn.wellFormed s.cfg = true) ∧
      s.busy = true ∧ ∀ i, decode s.cmd = .ok i → operandsWritten i s := by
  refine ⟨{ (given (caps 64 64 32) [0x61] 1 [0x62, 0x63] 2).issue 0x00000004 with
    turns := [.host (.readBuf .dst 31), .engine] }, rfl, by decide, by decide, ?_⟩
  intro i hi
  have : i = .hmacsha1 .bytes .bytes := by
    have h : decode 0x00000004 = .ok (.hmacsha1 .bytes .bytes) := by decide
    simpa [hi] using (show decode 0x00000004 = .ok i from hi).symm.trans h
  subst this
  refine ⟨show ∀ a, a < 1 → (fill [0x61]).read a ≠ none by decide, fun tk h => ?_⟩
  have : tk = .bytes := by simpa [keyType, eq_comm] using h
  subst this
  exact show ∀ a, a < 2 → (fill [0x62, 0x63]).read a ≠ none by decide

theorem test_witness_OutsideAddressFaults :
    (given (caps 64 64 32) [] 0 [] 0).cfg.cap .dst ≤ 32 ∧ (given (caps 0 64 32) [] 0 [] 0).cfg.cap .src ≤ 0 := by decide

theorem test_witness_CmdWriteIssues :
    ({ State.reset with turns := [.host (.writeReg .cmd 0x80000004)] } : State).busy = false ∧
    ({ State.reset with turns := [.host (.writeReg .cmd 0x80000004)] } : State).turns =
      .host (.writeReg .cmd 0x80000004) :: [] := by decide

theorem test_witness_RegisterAccesses : State.reset.busy = false := by decide

/-- The last address of each buffer. -/
theorem test_witness_BufferWriteSetsOneByte :
    State.reset.busy = false ∧ (0xFFFFFFFE : Nat) < State.reset.cfg.cap .src ∧
    (given (caps 64 64 32) [] 0 [] 0).busy = false ∧ 31 < (given (caps 64 64 32) [] 0 [] 0).cfg.cap .dst := by decide

/-- One byte that holds a value, at the last address, and one that holds none. -/
theorem test_witness_BufferReadReturnsTheByte :
    (given (caps 2 64 32) [0x61, 0x62] 2 [] 0).busy = false ∧ 1 < (given (caps 2 64 32) [0x61, 0x62] 2 [] 0).cfg.cap .src ∧
    ((given (caps 2 64 32) [0x61, 0x62] 2 [] 0).buf .src).read 1 = some 0x62 ∧
    ((given (caps 2 64 32) [0x61] 2 [] 0).buf .src).read 1 = none := by decide

/-- A state of the invariant with a command pending. -/
theorem inv_of_issue : ((given (caps 64 64 32) [0x61] 1 [] 0).issue 0x00000002).Inv where
  capsLegal := by decide
  statusLegal := by decide
  wf := by intro space; cases space <;> decide
  inside := by intro space; cases space <;> decide
  resultFits := by decide
  resultWritten := fun a ha => absurd ha (by show ¬a < 0; omega)
  imageFits := fun h => absurd h (by decide)
  imageWritten := fun h => absurd h (by decide)
  failedEmpty := fun _ => rfl
  freshIdle := fun h => absurd h (by decide)
  sequencerIdle := ⟨rfl, rfl⟩

theorem test_witness_BusyHostActions :
    ((given (caps 64 64 32) [0x61] 1 [] 0).issue 0x00000002).busy = true ∧
    ((given (caps 64 64 32) [0x61] 1 [] 0).issue 0x00000002).Inv ∧
    31 < ((given (caps 64 64 32) [0x61] 1 [] 0).issue 0x00000002).cfg.cap .dst :=
  ⟨by decide, inv_of_issue, by decide⟩

/-- Three accesses of the host, one of them the write P5 makes, before the engine's turn; the command completes. -/
theorem test_witness_HostCannotDisturbAPendingCommand :
    ∃ (hs : List HostAction) (s t : State) (rest : List Turn), hs.length = 3 ∧ s.busy = true ∧
      (∀ a ∈ hs, a.wellFormed s.cfg = true) ∧ s.turns = hs.map Turn.host ++ .engine :: rest ∧
      s.completePending = .next t :=
  ⟨[.writeReg .srcLen 0, .readReg .dstLen, .writeBuf .src 63 0],
    { (given (caps 64 64 32) [0x61, 0x62, 0x63] 3 [] 0).issue 0x00000003 with
      turns := [.host (.writeReg .srcLen 0), .host (.readReg .dstLen), .host (.writeBuf .src 63 0), .engine, .reset] },
    _, [.reset], rfl, by decide, by decide, rfl, rfl⟩

/-- A reset event that arrives while a command is pending. -/
theorem test_witness_ResetEventLeavesResetState :
    ({ State.reset.issue 0x00000002 with turns := [.reset, .engine] } : State).turns = .reset :: [.engine] ∧
    ({ State.reset.issue 0x00000002 with turns := [.reset, .engine] } : State).busy = true := by decide

/-- The state TOHEX of one byte leaves, its text of two units filling DST. -/
def afterTohex : State :=
  { given (caps 1 0 4) [0xff] 1 [] 0 with
    cmd := 0x00000005, status := 0x00000002, dstLen := 2, dst := fill [0x66, 0x00, 0x66, 0x00] }

/-- A state of the invariant between commands. -/
theorem inv_of_idle : afterTohex.Inv where
  capsLegal := by decide
  statusLegal := by decide
  wf := by intro space; cases space <;> decide
  inside := by intro space; cases space <;> decide
  resultFits := by decide
  resultWritten := show ∀ a, a < 2 → afterTohex.dst.read a ≠ none by decide
  imageFits := fun _ => by decide
  imageWritten := fun _ => show ∀ a, a < 4 → afterTohex.dst.read a ≠ none by decide
  failedEmpty := fun h => absurd (show statusErr afterTohex.status = 0 by decide) h
  freshIdle := fun h => absurd h (by decide)
  sequencerIdle := ⟨rfl, rfl⟩

/-- States of the invariant from which a step goes on: the completion of a pending command, and a step between commands. -/
theorem test_witness_StepKeepsTheInvariant :
    (∃ t, ((given (caps 64 64 32) [0x61] 1 [] 0).issue 0x00000002).Inv ∧
      step ((given (caps 64 64 32) [0x61] 1 [] 0).issue 0x00000002) = .next t) ∧
    ∃ t, afterTohex.Inv ∧ step afterTohex = .next t := ⟨⟨_, inv_of_issue, rfl⟩, _, inv_of_idle, rfl⟩

/-! ### Several instances, 60_exceptions.md R235 -/

/-- One instance completes a command while the other stays idle. -/
theorem test_instances :
    (match Instances.run [1, 0] [State.resetWith (caps 1 0 4), (given (caps 1 0 4) [0xff] 1 [] 0).issue 0x00000005] with
      | .next m => (m.map State.status) == [0x00000000, 0x00000002]
      | .fault _ => false
      | .refused _ => false) = true := by decide +kernel

/-- Two instances reset with different starts: their counters of free values differ, so nothing relates what they read of an
unwritten byte (log 20). -/
theorem test_instances_apart :
    (Instances.resetWith [(caps 1 0 4, 0), (caps 1 0 4, 7)]).map (fun s => (s.draws, s.resets, s.busy)) =
      [(0, 0, false), (7, 7, false)] := by decide

/-- UTF8ENC: three code units that fill SRC, and bytes that fill DST. -/
theorem test_witness_Utf8encStoresTheEncoding :
    ∃ (s : State) (t : List CodeUnit) (b : List Byte), 2 * s.srcLen.toNat ≤ s.cfg.srcCap ∧
      s.holdsText .src s.srcLen.toNat t ∧ utf8Encode t = .ok b ∧ b.length ≤ s.cfg.dstCap ∧ b.length = 9 := by
  refine ⟨given (caps 6 0 9) (textImage [0x20AC, 0x20AC, 0xFFFF]) 3 [] 0, [0x20AC, 0x20AC, 0xFFFF],
    [0xe2, 0x82, 0xac, 0xe2, 0x82, 0xac, 0xef, 0xbf, 0xbf], by decide, ⟨by decide, ?_⟩, by decide, by decide, by decide⟩
  rw [holds_iff]
  decide

/-- UTF8ENC of the empty text, every buffer of capacity 0. -/
theorem test_witness_Utf8encStoresTheEncoding_empty :
    ∃ (s : State), 2 * s.srcLen.toNat ≤ s.cfg.srcCap ∧ s.holdsText .src s.srcLen.toNat [] ∧
      utf8Encode [] = .ok [] ∧ ([] : List Byte).length ≤ s.cfg.dstCap := by
  refine ⟨given (caps 0 0 0) [] 0 [] 0, by decide, ⟨by decide, ?_⟩, by decide, by decide⟩
  rw [holds_iff]
  decide

/-- Md5StoresTheDigest: three bytes that fill SRC, and a text that fills SRC; a digest that fills DST. -/
theorem test_witness_Md5StoresTheDigest :
    (∃ (s : State) (m : List Byte), s.srcLen.toNat ≤ s.cfg.srcCap ∧ s.holdsBytes .src s.srcLen.toNat m ∧
      16 ≤ s.cfg.dstCap ∧ m.length = 3) ∧
    ∃ (s : State) (t : List CodeUnit) (m : List Byte), 2 * s.srcLen.toNat ≤ s.cfg.srcCap ∧
      s.holdsText .src s.srcLen.toNat t ∧ utf8Encode t = .ok m ∧ 16 ≤ s.cfg.dstCap ∧ t.length = 2 := by
  refine ⟨⟨given (caps 3 0 16) [0x61, 0x62, 0x63] 3 [] 0, [0x61, 0x62, 0x63], by decide, ⟨by decide, ?_⟩, by decide, by decide⟩,
    ⟨given (caps 4 0 16) (textImage [0x00E9, 0x20AC]) 2 [] 0, [0x00E9, 0x20AC], [0xc3, 0xa9, 0xe2, 0x82, 0xac], by decide,
      ⟨by decide, ?_⟩, by decide, by decide, by decide⟩⟩ <;> rw [holds_iff] <;> decide

/-- Sha1StoresTheDigest: three bytes that fill SRC, and a text that fills SRC; a digest that fills DST. -/
theorem test_witness_Sha1StoresTheDigest :
    (∃ (s : State) (m : List Byte), s.srcLen.toNat ≤ s.cfg.srcCap ∧ s.holdsBytes .src s.srcLen.toNat m ∧
      20 ≤ s.cfg.dstCap ∧ m.length = 3) ∧
    ∃ (s : State) (t : List CodeUnit) (m : List Byte), 2 * s.srcLen.toNat ≤ s.cfg.srcCap ∧
      s.holdsText .src s.srcLen.toNat t ∧ utf8Encode t = .ok m ∧ 20 ≤ s.cfg.dstCap ∧ t.length = 2 := by
  refine ⟨⟨given (caps 3 0 20) [0x61, 0x62, 0x63] 3 [] 0, [0x61, 0x62, 0x63], by decide, ⟨by decide, ?_⟩, by decide, by decide⟩,
    ⟨given (caps 4 0 20) (textImage [0xD83D, 0xDE00]) 2 [] 0, [0xD83D, 0xDE00], [0xf0, 0x9f, 0x98, 0x80], by decide,
      ⟨by decide, ?_⟩, by decide, by decide, by decide⟩⟩ <;> rw [holds_iff] <;> decide

/-- HMACSHA1: a message of bytes and a text key, each filling its buffer. -/
theorem test_witness_HmacStoresTheDigest :
    ∃ (s : State) (m k : List Byte), bytesOf .bytes s.srcLen.toNat ≤ s.cfg.srcCap ∧
      bytesOf .text s.keyLen.toNat ≤ s.cfg.keyCap ∧ s.operandIs .src s.srcLen.toNat m .bytes ∧
      s.operandIs .key s.keyLen.toNat k .text ∧ 20 ≤ s.cfg.dstCap ∧ m.length = 2 ∧ k.length = 3 := by
  refine ⟨given (caps 2 4 20) [0x61, 0x62] 2 (textImage [0x6b, 0x00E9]) 2, [0x61, 0x62], [0x6b, 0xc3, 0xa9], by decide,
    by decide, ⟨by decide, ?_⟩, ⟨[0x6b, 0x00E9], ⟨by decide, ?_⟩, by decide⟩, by decide, by decide, by decide⟩ <;>
    rw [holds_iff] <;> decide

/-- TOHEX: two bytes that fill SRC, a text that fills DST. -/
theorem test_witness_TohexStoresTheText :
    ∃ (s : State) (b : List Byte), s.srcLen.toNat ≤ s.cfg.srcCap ∧ s.holdsBytes .src s.srcLen.toNat b ∧
      4 * s.srcLen.toNat ≤ s.cfg.dstCap ∧ b.length = 2 := by
  refine ⟨given (caps 2 0 8) [0x05, 0xa9] 2 [] 0, [0x05, 0xa9], by decide, ⟨by decide, ?_⟩, by decide, by decide⟩
  rw [holds_iff]
  decide

/-- FROMHEX: four code units that fill SRC, two bytes that fill DST. -/
theorem test_witness_FromhexStoresTheBytes :
    ∃ (s : State) (t : List CodeUnit) (b : List Byte), 2 * s.srcLen.toNat ≤ s.cfg.srcCap ∧
      s.holdsText .src s.srcLen.toNat t ∧ fromHex t = .ok b ∧ s.srcLen.toNat / 2 ≤ s.cfg.dstCap ∧ b.length = 2 := by
  refine ⟨given (caps 8 0 2) (textImage (ascii "0aFf")) 4 [] 0, ascii "0aFf", [0x0a, 0xff], by decide, ⟨by decide, ?_⟩,
    by decide, by decide, by decide⟩
  rw [holds_iff]
  decide

/-- TOBASE64: four bytes that fill SRC, two groups, sixteen bytes that fill DST. -/
theorem test_witness_Tobase64StoresTheText :
    ∃ (s : State) (b : List Byte), s.srcLen.toNat ≤ s.cfg.srcCap ∧ s.holdsBytes .src s.srcLen.toNat b ∧
      8 * ((s.srcLen.toNat + 2) / 3) ≤ s.cfg.dstCap ∧ b.length = 4 := by
  refine ⟨given (caps 4 0 16) [0x66, 0x6f, 0x6f, 0x62] 4 [] 0, [0x66, 0x6f, 0x6f, 0x62], by decide, ⟨by decide, ?_⟩,
    by decide, by decide⟩
  rw [holds_iff]
  decide

/-- A command that has no key operand has one that fits. -/
theorem keyFits_of_none (i : Instr) (s : State) (h : keyType i = none) : keyFits i s := by
  intro tk h'
  simp [h] at h'

/-- V33: an illegal word. -/
theorem test_witness_ErrorsInPriorityOrder_illegal :
    ∀ i, decode ((given (caps 64 64 32) [] 0 [] 0).issue 0x00000008).cmd ≠ .ok i := by
  intro i
  have : decode ((given (caps 64 64 32) [] 0 [] 0).issue 0x00000008).cmd = .error .opBase64Decoder := by decide
  rw [this]
  simp

/-- V34: a source, and a key, one element longer than its buffer. -/
theorem test_witness_ErrorsInPriorityOrder_range :
    (∃ s i, decode s.cmd = .ok i ∧ ¬srcFits i s) ∧ ∃ s i, decode s.cmd = .ok i ∧ ¬keyFits i s :=
  ⟨⟨(given (caps 64 64 32) [] 33 [] 0).issue 0x00000102, .md5 .text, by decide, show ¬2 * 33 ≤ 64 by decide⟩,
    ⟨(given (caps 64 64 32) [] 0 [] 65).issue 0x00000004, .hmacsha1 .bytes .bytes, by decide,
      fun h => absurd (h .bytes rfl) (show ¬65 ≤ 64 by decide)⟩⟩

/-- V21, V31: an unpaired surrogate, and an odd number of hex digits, each filling SRC. -/
theorem test_witness_ErrorsInPriorityOrder_source :
    (∃ s, decode s.cmd = .ok .utf8enc ∧ srcFits .utf8enc s ∧ keyFits .utf8enc s ∧ sourceBad .utf8enc s) ∧
    ∃ s, decode s.cmd = .ok .fromhex ∧ srcFits .fromhex s ∧ keyFits .fromhex s ∧ sourceBad .fromhex s := by
  refine ⟨⟨(given (caps 2 0 0) (textImage [0xD800]) 1 [] 0).issue 0x00000001, by decide, show 2 * 1 ≤ 2 by decide,
      keyFits_of_none _ _ rfl, rfl, [0xD800], ⟨by decide, ?_⟩, ?_⟩,
    ⟨(given (caps 2 0 0) (textImage [0x0030]) 1 [] 0).issue 0x00000006, by decide, show 2 * 1 ≤ 2 by decide,
      keyFits_of_none _ _ rfl, rfl, [0x0030], ⟨by decide, ?_⟩, ?_⟩⟩
  · rw [holds_iff]; decide
  · rw [if_neg (by decide)]; decide
  · rw [holds_iff]; decide
  · rw [if_pos rfl]; decide

/-- An unpaired surrogate in the key, under a sound (empty) source. -/
theorem test_witness_ErrorsInPriorityOrder_key :
    ∃ s m, decode s.cmd = .ok (.hmacsha1 .bytes .text) ∧ srcFits (.hmacsha1 .bytes .text) s ∧
      keyFits (.hmacsha1 .bytes .text) s ∧ sourceIs (.hmacsha1 .bytes .text) s m ∧ keyBad (.hmacsha1 .bytes .text) s := by
  refine ⟨(given (caps 0 2 0) [] 0 (textImage [0xDC00]) 1).issue 0x00000204, [], by decide, show 0 ≤ 0 by decide,
    fun tk h => ?_, ⟨by decide, ?_⟩, rfl, [0xDC00], ⟨by decide, ?_⟩, by decide⟩
  · have : tk = .text := by simpa [keyType, eq_comm] using h
    subst this
    exact show 2 * 1 ≤ 2 by decide
  · rw [holds_iff]; decide
  · rw [holds_iff]; decide

/-- V34: a result of one group more than DST holds. -/
theorem test_witness_ErrorsInPriorityOrder_result :
    ∃ s m, decode s.cmd = .ok .tobase64 ∧ srcFits .tobase64 s ∧ keyFits .tobase64 s ∧ sourceIs .tobase64 s m ∧
      keyIs .tobase64 s [] ∧ s.cfg.dstCap < (resultOf .tobase64 m []).image.length := by
  refine ⟨(given (caps 64 64 32) (counting 13) 13 [] 0).issue 0x00000007, counting 13, by decide,
    show 13 ≤ 64 by decide, keyFits_of_none _ _ rfl, ⟨by decide, ?_⟩, fun tk h => ?_, by decide⟩
  · rw [holds_iff]; decide
  · simp [keyType] at h

/-- A source byte without a value, and a key byte without a value under a source that has its values. -/
theorem test_witness_UnwrittenOperandIsRefused :
    (∃ s, srcFits (.sha1 .text) s ∧ keyFits (.sha1 .text) s ∧
      ¬s.written .src (bytesOf (srcType (.sha1 .text)) s.srcLen.toNat)) ∧
    ∃ s m, srcFits (.hmacsha1 .bytes .bytes) s ∧ keyFits (.hmacsha1 .bytes .bytes) s ∧
      sourceIs (.hmacsha1 .bytes .bytes) s m ∧ keyType (.hmacsha1 .bytes .bytes) = some .bytes ∧
      ¬s.written .key (bytesOf .bytes s.keyLen.toNat) := by
  refine ⟨⟨given (caps 4 0 0) [0x61] 1 [] 0, show 2 * 1 ≤ 4 by decide, keyFits_of_none _ _ rfl,
      fun h => h 1 (by decide) (by decide)⟩,
    ⟨given (caps 1 1 0) [0x61] 1 [] 1, [0x61], show 1 ≤ 1 by decide, fun tk h => ?_, ⟨by decide, ?_⟩, rfl,
      fun h => h 0 (by decide) (by decide)⟩⟩
  · have : tk = .bytes := by simpa [keyType, eq_comm] using h
    subst this
    exact show 1 ≤ 1 by decide
  · rw [holds_iff]; decide

/-- Next states of the frame statements: a success and a failure. -/
theorem test_witness_CommandFrame :
    (∃ t, exec .tohex (given (caps 1 0 4) [0xff] 1 [] 0) = .next t ∧ t.status = 0x00000002) ∧
    (∃ t, exec .tohex (given (caps 1 0 3) [0xff] 1 [] 0) = .next t ∧ t.status = 0x00000042) ∧
    ∃ t, exec .fromhex (given (caps 2 0 3) (textImage [0x0030]) 1 [] 0) = .next t ∧ t.status = 0x00000012 :=
  ⟨⟨_, rfl, by decide⟩, ⟨_, rfl, by decide⟩, ⟨_, rfl, by decide⟩⟩

theorem test_witness_ByteCommandsNeverEncodingError :
    Instr.tobase64 ∈ [.tohex, .tobase64, .md5 .bytes, .sha1 .bytes, .hmacsha1 .bytes .bytes] ∧
    ∃ t, exec .tobase64 (given (caps 1 0 7) [0xff] 1 [] 0) = .next t ∧ statusErr t.status = 4 :=
  ⟨by decide, _, rfl, by decide⟩

/-- Two states with the same operands and nothing else in common; the command ends with a result in both. -/
theorem test_witness_CommandsArePureFunctions :
    SameOperands (given (caps 1 0 4) [0xff] 1 [] 0)
      { (given (caps 1 0 4) [0xff] 1 [] 0).issue 0x00000008 with
        dst := fill [1, 2, 3, 4], dstLen := 4, draws := 7, turns := [.reset] } ∧
    ∃ t, exec .tohex (given (caps 1 0 4) [0xff] 1 [] 0) = .next t ∧ t.dstLen = 2 :=
  ⟨⟨rfl, rfl, rfl, rfl, rfl, rfl, rfl⟩, _, rfl, by decide⟩

/-- UTF8ENC of a text of two units; its three bytes copied to SRC of another state. -/
theorem test_witness_TextHashEqualsEncodeThenHash :
    ∃ u, (given (caps 4 0 16) (textImage [0x0061, 0x00E9]) 2 [] 0).cfg.legal ∧
      exec .utf8enc (given (caps 4 0 16) (textImage [0x0061, 0x00E9]) 2 [] 0) = .next u ∧ u.status = 0x00000002 ∧
      (given (caps 3 0 16) [0x61, 0xc3, 0xa9] 3 [] 0).srcLen = u.dstLen ∧
      (∀ k, k < 3 → (given (caps 3 0 16) [0x61, 0xc3, 0xa9] 3 [] 0).src.read k = u.dst.read k) ∧
      u.dstLen.toNat ≤ (given (caps 3 0 16) [0x61, 0xc3, 0xa9] 3 [] 0).cfg.srcCap ∧ u.dstLen.toNat = 3 :=
  ⟨_, by decide, rfl, by decide, by decide, by decide, by decide, by decide⟩

theorem test_witness_WorkingStateIsUnobservable :
    ∃ t, step ((given (caps 1 0 4) [0xff] 1 [] 0).issue 0x00000005) = .next t := ⟨_, rfl⟩

theorem test_witness_BaseAddressesDoNotMatter :
    ∃ t, step ((given (caps 1 0 4) [0xff] 1 [] 0).issue 0x00000005) = .next t := ⟨_, rfl⟩

theorem test_witness_BufferWritesReadBack : Memory.wf (fill [0x61, 0x62]) ∧ Memory.wf [] := by decide

theorem test_witness_FetchReadsTheOperand :
    (given (caps 4 0 0) (textImage [0x0061, 0x00E9]) 2 [] 0).fetch .src 2 .text = .ok [0x61, 0xc3, 0xa9] ∧
    (given (caps 4 0 0) [0x61, 0x62] 2 [] 0).fetch .src 2 .bytes = .ok [0x61, 0x62] := by decide

/-- The boundary code units of V20 and V21, clause by clause. -/
theorem test_witness_Utf8EncodesByCodePoint :
    utf8Encode [0x007A] = .ok [0x7a] ∧ (0x007F : CodeUnit).toNat < 0x80 ∧
    (0x80 ≤ (0x0080 : CodeUnit).toNat ∧ (0x07FF : CodeUnit).toNat < 0x800) ∧
    (0x800 ≤ (0x0800 : CodeUnit).toNat ∧ (0xD7FF : CodeUnit).toNat < 0xD800) ∧
    (0xE000 ≤ (0xE000 : CodeUnit).toNat ∧ 0xE000 ≤ (0xFFFF : CodeUnit).toNat) ∧
    (0xD800 ≤ (0xDBFF : CodeUnit).toNat ∧ (0xDBFF : CodeUnit).toNat ≤ 0xDBFF ∧
      0xDC00 ≤ (0xDFFF : CodeUnit).toNat ∧ (0xDFFF : CodeUnit).toNat ≤ 0xDFFF ∧
      0x10FFFF = 0x10000 + ((0xDBFF : CodeUnit).toNat - 0xD800) * 0x400 + ((0xDFFF : CodeUnit).toNat - 0xDC00)) ∧
    utf8Encode [0xDC00] = .error .encoding ∧
    (0xDC00 ≤ (0xDC00 : CodeUnit).toNat ∧ (0xDFFF : CodeUnit).toNat ≤ 0xDFFF) ∧
    ((0x0041 : CodeUnit).toNat < 0xDC00 ∧ 0xDFFF < (0xE000 : CodeUnit).toNat) := by decide

theorem test_witness_Utf8EncodeIsAMonoidMap :
    utf8Encode [0x20AC] = .ok [0xe2, 0x82, 0xac] ∧ utf8Encode [0xD83D, 0xDE00] = .ok [0xf0, 0x9f, 0x98, 0x80] ∧
    ¬((∃ x, [(0x20AC : CodeUnit)].getLast? = some x ∧ 0xD800 ≤ x.toNat ∧ x.toNat ≤ 0xDBFF) ∧
      ∃ y, [(0xD83D : CodeUnit), 0xDE00].head? = some y ∧ 0xDC00 ≤ y.toNat ∧ y.toNat ≤ 0xDFFF) ∧
    ∀ u ∈ [(0x0041 : CodeUnit), 0x007F], u.toNat < 0x80 := by
  refine ⟨by decide, by decide, ?_, by simp⟩
  rintro ⟨⟨x, hx, h1, -⟩, -⟩
  have : x = 0x20AC := by simpa [eq_comm] using hx
  subst this
  exact absurd h1 (by decide)

theorem test_witness_Utf8LengthBound : utf8Encode [0xFFFF] = .ok [0xef, 0xbf, 0xbf] ∧ [(0xFFFF : CodeUnit)].length ≤ 2 ^ 32 - 1 := by
  decide

theorem test_witness_Utf8EncodeIsInjective : utf8Encode [0x0080] = .ok [0xc2, 0x80] := by decide

theorem test_witness_PaddingLayout : ([] : List Byte).length < 2 ^ 61 ∧ (counting 56).length < 2 ^ 61 := by decide

theorem test_witness_PaddedBlockCount : 1 < ((counting 56).length + 8) / 64 + 1 := by decide

theorem test_witness_RotationMovesBits : 1 ≤ 31 ∧ 31 ≤ 31 ∧ 31 < 32 := by decide

/-- Keys of 63, 64 and 65 bytes. -/
theorem test_witness_NormalisedKey : 64 < (counting 65).length ∧ (counting 63).length ≤ 64 ∧ (counting 64).length = 64 := by
  decide

theorem test_witness_LongKeyEqualsItsDigest : 64 < (counting 65).length := by decide

theorem test_witness_HexRoundTrip : fromHex (ascii "0aFf") = .ok [0x0a, 0xff] := by decide

/-- The first and the last digit of each range. -/
theorem test_witness_HexValueOfDigits :
    (0x30 ≤ (0x0030 : CodeUnit).toNat ∧ (0x0039 : CodeUnit).toNat ≤ 0x39) ∧
    (0x61 ≤ (0x0061 : CodeUnit).toNat ∧ (0x0066 : CodeUnit).toNat ≤ 0x66) ∧
    (0x41 ≤ (0x0041 : CodeUnit).toNat ∧ (0x0046 : CodeUnit).toNat ≤ 0x46) ∧
    hexValue 0x0130 = none ∧ hexValue 0x0067 = none := by decide

theorem test_witness_FromHexAcceptsExactlyHexPairs :
    (ascii "0aFf").length % 2 = 0 ∧ (∀ u ∈ ascii "0aFf", hexValue u ≠ none) ∧
    (ascii "abc").length % 2 = 1 ∧ (∃ u ∈ ascii "0g", hexValue u = none) :=
  ⟨by decide, by simp [ascii, utf16, charUnits, hexValue], by decide, 0x0067, by decide, by decide⟩

/-- A full group, and each final partial group. -/
theorem test_witness_Base64Groups :
    3 * 0 + 2 < [(0x66 : Byte), 0x6f, 0x6f].length ∧ [(0x66 : Byte), 0x6f, 0x6f, 0x62].length = 3 * 1 + 1 ∧
    [(0x66 : Byte), 0x6f].length = 3 * 0 + 2 := by decide

theorem test_witness_ToBase64IsInjective : toBase64 [0xff] = ascii "/w==" := by decide

/-- A host turn before the engine's, at the last address of DST. -/
theorem test_witness_StepPerformsTheHostAccess :
    ({ given (caps 64 64 32) [] 0 [] 0 with turns := [.host (.writeBuf .dst 31 0xff), .engine] } : State).turns =
      .host (.writeBuf .dst 31 0xff) :: [.engine] := by decide

end Sys2Proof.Tests
end

section
/-! SUPPORT. The evaluation of a command: the type of its answer and the errors it can raise (spec/30_encoding.md R77,
spec/60_exceptions.md R221, R222). -/

namespace Sys2Proof.Machine

/-! ### What a sequence of checks and fetches answers -/

theorem exceptMap_eq_ok {ε α β : Type} {x : Except ε α} {f : α → β} {b : β} (h : x.map f = .ok b) :
    ∃ a, x = .ok a ∧ f a = b := by
  cases x with
  | ok a => exact ⟨a, rfl, Except.ok.inj h⟩
  | error e => cases h

theorem exceptMap_eq_error {ε α β : Type} {x : Except ε α} {f : α → β} {e : ε} (h : x.map f = .error e) :
    x = .error e := by
  cases x with
  | ok a => cases h
  | error e' => exact congrArg Except.error (Except.error.inj h)

theorem exceptBind_eq_ok {ε α β : Type} {x : Except ε α} {f : α → Except ε β} {b : β} (h : x.bind f = .ok b) :
    ∃ a, x = .ok a ∧ f a = .ok b := by
  cases x with
  | ok a => exact ⟨a, rfl, h⟩
  | error e => cases h

theorem exceptBind_eq_error {ε α β : Type} {x : Except ε α} {f : α → Except ε β} {e : ε}
    (h : x.bind f = .error e) :
    x = .error e ∨ ∃ a, x = .ok a ∧ f a = .error e := by
  cases x with
  | ok a => exact .inr ⟨a, rfl, h⟩
  | error e' => exact .inl (congrArg Except.error (Except.error.inj h))

theorem raising_eq_ok {α : Type} {x : Except CmdError α} {a : α} (h : raising x = .ok a) : x = .ok a := by
  cases x with
  | ok a' => exact congrArg Except.ok (Except.ok.inj h)
  | error e => cases h

theorem raising_eq_raise {α : Type} {x : Except CmdError α} {e : CmdError} (h : raising x = .error (.raise e)) :
    x = .error e := by
  cases x with
  | ok a => cases h
  | error e' => simpa [raising] using h

/-- An operand that passes its range check fits, 20_memory.md R62. -/
theorem State.inRange_eq_ok {α : Type} {s : State} {space : Space} {ty : OperandType} {len : Word} {k : Except Halt α}
    {a : α} (h : s.inRange space ty len k = .ok a) : bytesOf ty len.toNat ≤ s.cfg.cap space ∧ k = .ok a := by
  by_cases hf : bytesOf ty len.toNat ≤ s.cfg.cap space
  · rw [State.inRange_pos _ _ _ _ _ hf] at h
    exact ⟨hf, h⟩
  · rw [State.inRange_neg _ _ _ _ _ hf] at h
    cases h

/-- The range check raises OPERAND_RANGE and nothing else, 20_memory.md R62. -/
theorem State.inRange_eq_raise {α : Type} {s : State} {space : Space} {ty : OperandType} {len : Word}
    {k : Except Halt α} {e : CmdError} (h : s.inRange space ty len k = .error (.raise e)) :
    e = .operandRange ∨ k = .error (.raise e) := by
  by_cases hf : bytesOf ty len.toNat ≤ s.cfg.cap space
  · rw [State.inRange_pos _ _ _ _ _ hf] at h
    exact .inr h
  · rw [State.inRange_neg _ _ _ _ _ hf] at h
    simp only [Except.error.injEq, Halt.raise.injEq] at h
    exact .inl h.symm

/-- The operand fetch raises ENCODING and nothing else, 40_utf8_encoder.md R105. -/
theorem State.fetch_eq_raise {s : State} {space : Space} {n : Nat} {ty : OperandType} {e : CmdError}
    (h : s.fetch space n ty = .error (.raise e)) : e = .encoding := by
  obtain ⟨-, he, -⟩ := (State.fetch_raise s space n ty e).mp h
  exact he

theorem State.source_eq_raise {s : State} {ty : OperandType} {e : CmdError} (h : s.source ty = .error (.raise e)) :
    e = .encoding ∨ e = .operandRange := by
  rcases State.inRange_eq_raise h with rfl | h
  · exact .inr rfl
  · exact .inl (State.fetch_eq_raise h)

/-! ### The commands -/

/-- A command's result has the type its row gives it, 30_encoding.md R77. -/
theorem evaluate_type {i : Instr} {s : State} {r : Result} (h : evaluate i s = .ok r) : r.type = resultType i := by
  cases i with
  | utf8enc | md5 | sha1 | tohex | tobase64 =>
    obtain ⟨m, -, rfl⟩ := exceptMap_eq_ok h
    rfl
  | hmacsha1 tm tk =>
    obtain ⟨-, h⟩ := State.inRange_eq_ok h
    obtain ⟨-, h⟩ := State.inRange_eq_ok h
    obtain ⟨m, -, h⟩ := exceptBind_eq_ok h
    obtain ⟨k, -, rfl⟩ := exceptMap_eq_ok h
    rfl
  | fromhex =>
    obtain ⟨-, h⟩ := State.inRange_eq_ok h
    obtain ⟨t, -, h⟩ := exceptBind_eq_ok h
    obtain ⟨b, -, rfl⟩ := exceptMap_eq_ok (raising_eq_ok h)
    rfl

/-- A legal command raises ENCODING or OPERAND_RANGE and nothing else, 60_exceptions.md R221 and R222. -/
theorem evaluate_raise {i : Instr} {s : State} {e : CmdError} (h : evaluate i s = .error (.raise e)) :
    e = .encoding ∨ e = .operandRange := by
  cases i with
  | utf8enc | md5 | sha1 | tohex | tobase64 => exact State.source_eq_raise (exceptMap_eq_error h)
  | hmacsha1 tm tk =>
    rcases State.inRange_eq_raise h with rfl | h
    · exact .inr rfl
    rcases State.inRange_eq_raise h with rfl | h
    · exact .inr rfl
    rcases exceptBind_eq_error h with h | ⟨m, -, h⟩
    · exact .inl (State.fetch_eq_raise h)
    · exact .inl (State.fetch_eq_raise (exceptMap_eq_error h))
  | fromhex =>
    rcases State.inRange_eq_raise h with rfl | h
    · exact .inr rfl
    rcases exceptBind_eq_error h with h | ⟨t, -, h⟩
    · obtain ⟨x, -, -, -, hx⟩ := Memory.readUnits_error _ _ _ _ _ h
      cases hx
    · exact .inl (fromHex_error t e (exceptMap_eq_error (raising_eq_raise h)))

end Sys2Proof.Machine
end

section
/-! SUPPORT. The invariant kept by each operation of the machine, and so by every step. -/

namespace Sys2Proof.Machine

/-! ### What the invariant reads -/

theorem State.busy_congr {s t : State} (h : t.status = s.status) : t.busy = s.busy := by
  simp only [State.busy, h]

theorem State.resultType_congr {s t : State} (h : t.cmd = s.cmd) : t.resultType = s.resultType := by
  simp only [State.resultType, h]

theorem State.written_mono {s : State} {space : Space} {m n : Nat} (hmn : m ≤ n) (h : s.written space n) :
    s.written space m := fun a ha => h a (by omega)

@[simp] theorem State.written_zero (s : State) (space : Space) : s.written space 0 := fun a ha => by omega

@[simp] theorem bytesOf_zero (ty : OperandType) : bytesOf ty 0 = 0 := by cases ty <;> rfl

theorem le_bytesOf (ty : OperandType) (n : Nat) : n ≤ bytesOf ty n := by
  cases ty with
  | bytes => exact Nat.le_refl n
  | text => exact Nat.le_mul_of_pos_left n (by decide)

/-- The invariant says nothing of the length registers, the turns, the replies and the counters. -/
theorem State.Inv.transfer {s t : State} (h : s.Inv) (hcfg : t.cfg = s.cfg) (hcmd : t.cmd = s.cmd)
    (hstatus : t.status = s.status) (hdstLen : t.dstLen = s.dstLen) (hbuf : t.buf = s.buf) (hwork : t.work = s.work) :
    t.Inv where
  capsLegal := hcfg ▸ h.capsLegal
  statusLegal := hstatus ▸ h.statusLegal
  wf := hbuf ▸ h.wf
  inside := hcfg ▸ hbuf ▸ h.inside
  resultFits := hcfg ▸ hdstLen ▸ h.resultFits
  resultWritten := by simpa only [State.written, hbuf, hdstLen] using h.resultWritten
  imageFits := by
    simpa only [State.busy_congr hstatus, State.resultType_congr hcmd, hdstLen, hcfg] using h.imageFits
  imageWritten := by
    simpa only [State.busy_congr hstatus, State.resultType_congr hcmd, State.written, hbuf, hdstLen] using h.imageWritten
  failedEmpty := hstatus ▸ hdstLen ▸ h.failedEmpty
  freshIdle := hstatus ▸ hdstLen ▸ hcmd ▸ h.freshIdle
  sequencerIdle := hwork ▸ h.sequencerIdle

/-! ### The host's accesses -/

theorem State.Inv.setTurns {s : State} (h : s.Inv) (ts : List Turn) : State.Inv { s with turns := ts } :=
  h.transfer rfl rfl rfl rfl rfl rfl

theorem State.Inv.reply {s : State} (h : s.Inv) (r : Reply) : (s.reply r).Inv := h.transfer rfl rfl rfl rfl rfl rfl

theorem State.Inv.replyDrawn {s : State} (h : s.Inv) (r : Reply) : (s.replyDrawn r).Inv :=
  h.transfer rfl rfl rfl rfl rfl rfl

theorem State.Inv.readReg {s : State} (h : s.Inv) (r : Reg) : (s.readReg r).Inv := by
  unfold State.readReg
  split
  · exact h.replyDrawn _
  · exact h.reply _

theorem State.Inv.readBuf {s : State} (h : s.Inv) (space : Space) (addr : Nat) : (s.readBuf space addr).Inv := by
  unfold State.readBuf
  split
  · exact h.replyDrawn _
  · exact h.reply _

theorem State.issue_busy (s : State) (v : Word) : (s.issue v).busy = true := show statusBusy statusIssued = true by decide

theorem State.Inv.issue {s : State} (h : s.Inv) (v : Word) : (s.issue v).Inv where
  capsLegal := h.capsLegal
  statusLegal := show statusIssued ∈ legalStatuses by decide
  wf := h.wf
  inside := h.inside
  resultFits := h.resultFits
  resultWritten := h.resultWritten
  imageFits := fun hb => absurd hb (by simp [State.issue_busy])
  imageWritten := fun hb => absurd hb (by simp [State.issue_busy])
  failedEmpty := fun he => absurd (show statusErr statusIssued = 0 by decide) he
  freshIdle := fun hs => absurd hs (show statusIssued ≠ 0 by decide)
  sequencerIdle := h.sequencerIdle

theorem State.Inv.writeReg {s : State} (h : s.Inv) (r : Reg) (v : Word) : (s.writeReg r v).Inv := by
  unfold State.writeReg
  split
  · exact h
  · cases r with
    | cmd => exact h.issue v
    | status | dstLen => exact h
    | srcLen | keyLen => exact h.transfer rfl rfl rfl rfl rfl rfl

/-- A write leaves no byte without a value that had one. -/
theorem State.written_setBuf_write {s : State} {p : Space} {n : Nat} (h : s.written p n) (q : Space) (addr : Nat)
    (v : Byte) : (s.setBuf q ((s.buf q).write addr v)).written p n := by
  intro a ha
  rw [State.setBuf_buf]
  split
  · subst p
    rw [Memory.read_write]
    split
    · simp
    · exact h a ha
  · exact h a ha

theorem State.Inv.setBuf_write {s : State} (h : s.Inv) {space : Space} {addr : Nat} (v : Byte)
    (ha : addr < s.cfg.cap space) : (s.setBuf space ((s.buf space).write addr v)).Inv := by
  have hbusy : (s.setBuf space ((s.buf space).write addr v)).busy = s.busy := State.busy_congr (by simp)
  have htype : (s.setBuf space ((s.buf space).write addr v)).resultType = s.resultType :=
    State.resultType_congr (by simp)
  exact {
    capsLegal := by simpa using h.capsLegal
    statusLegal := by simpa using h.statusLegal
    wf := by
      intro q
      rw [State.setBuf_buf]
      split
      · exact Memory.wf_write _ (h.wf space) addr v
      · exact h.wf q
    inside := by
      intro q
      rw [State.setBuf_buf, State.setBuf_cfg]
      split
      · subst q
        exact Memory.inside_write _ _ addr v ha (h.inside space)
      · exact h.inside q
    resultFits := by simpa using h.resultFits
    resultWritten := by
      rw [State.setBuf_dstLen]
      exact State.written_setBuf_write h.resultWritten space addr v
    imageFits := by simpa [hbusy, htype] using h.imageFits
    imageWritten := by
      rw [hbusy, htype, State.setBuf_dstLen]
      exact fun hb => State.written_setBuf_write (h.imageWritten hb) space addr v
    failedEmpty := by simpa using h.failedEmpty
    freshIdle := by simpa using h.freshIdle
    sequencerIdle := by simpa using h.sequencerIdle }

theorem State.Inv.writeBuf {s : State} (h : s.Inv) {space : Space} {addr : Nat} (v : Byte)
    (ha : addr < s.cfg.cap space) : (s.writeBuf space addr v).Inv := by
  unfold State.writeBuf
  split
  · exact h
  · exact h.setBuf_write v ha

/-- An access to a buffer goes on only at an address that exists, 46_host_access.md R300. -/
theorem State.atAddress_next {s t u : State} {space : Space} {addr : Nat} (h : s.atAddress space addr t = .next u) :
    addr < s.cfg.cap space ∧ u = t := by
  unfold State.atAddress at h
  split at h
  · exact ⟨‹_›, (Host.Outcome.next.inj h).symm⟩
  · cases h

theorem State.Inv.hostAccess {s t : State} (h : s.Inv) {a : HostAction} (ht : hostAccess a s = .next t) : t.Inv := by
  cases a with
  | readReg r =>
    cases ht
    exact h.readReg r
  | writeReg r v =>
    cases ht
    exact h.writeReg r v
  | readBuf space addr =>
    obtain ⟨-, rfl⟩ := State.atAddress_next ht
    exact h.readBuf space addr
  | writeBuf space addr v =>
    obtain ⟨ha, rfl⟩ := State.atAddress_next ht
    exact h.writeBuf v ha

/-! ### The reset event -/

theorem State.Inv.resetEvent {s : State} (h : s.Inv) : s.resetEvent.Inv where
  capsLegal := h.capsLegal
  statusLegal := show 0 ∈ legalStatuses by decide
  wf := by intro space; cases space <;> exact List.Pairwise.nil
  inside := by intro space; cases space <;> simp
  resultFits := Nat.zero_le _
  resultWritten := State.written_zero _ _
  imageFits := by simp
  imageWritten := by simp
  failedEmpty := fun _ => rfl
  freshIdle := fun _ => ⟨rfl, rfl⟩
  sequencerIdle := ⟨rfl, rfl⟩

/-! ### The engine's completion -/

/-- The error entry keeps the invariant for every error but LENGTH_OVERFLOW, whose STATUS word 10_state.md R24 does not
list. -/
theorem State.Inv.errorEntry {s : State} (h : s.Inv) {e : CmdError} (he : e ≠ .lengthOverflow) :
    (s.errorEntry e).Inv where
  capsLegal := h.capsLegal
  statusLegal := by
    rw [State.errorEntry_status]
    cases e with
    | lengthOverflow => exact absurd rfl he
    | encoding | illegalCmd | operandRange => decide
  wf := h.wf
  inside := h.inside
  resultFits := Nat.zero_le _
  resultWritten := State.written_zero _ _
  imageFits := by simp
  imageWritten := by simp
  failedEmpty := fun _ => rfl
  freshIdle := by
    rw [State.errorEntry_status]
    intro hs
    exact absurd hs (by cases e <;> decide)
  sequencerIdle := ⟨rfl, rfl⟩

/-- DST_LEN counts a stored result without wrap-around: one that fits DST has fewer than 2^32 elements. -/
theorem State.succeed_dstLen_toNat {s : State} (hcap : s.cfg.dstCap < 2 ^ 32) {r : Result}
    (hfit : bytesOf r.type r.count ≤ s.cfg.dstCap) : (s.succeed r).dstLen.toNat = r.count := by
  have hcount := le_bytesOf r.type r.count
  rw [State.succeed_dstLen, BitVec.toNat_ofNat, Nat.mod_eq_of_lt (by omega)]

/-- Every byte of a stored result is in DST, 46_host_access.md R307. -/
theorem State.succeed_written (s : State) (r : Result) :
    (s.succeed r).written .dst (bytesOf r.type r.count) := by
  intro a ha
  rw [← Result.image_length] at ha
  rw [(State.succeed_success s r).stored a ha, List.getElem?_eq_getElem ha]
  simp

theorem State.succeed_buf_wf {s : State} (h : ∀ space, (s.buf space).wf) (r : Result) (space : Space) :
    ((s.succeed r).buf space).wf := by
  cases space with
  | src => exact h .src
  | key => exact h .key
  | dst => exact Memory.wf_writeBytes _ (h .dst) 0 r.image

theorem State.succeed_buf_inside {s : State} (h : ∀ space, ∀ p ∈ s.buf space, p.1 < s.cfg.cap space) {r : Result}
    (hfit : bytesOf r.type r.count ≤ s.cfg.dstCap) (space : Space) :
    ∀ p ∈ (s.succeed r).buf space, p.1 < (s.succeed r).cfg.cap space := by
  cases space with
  | src => exact h .src
  | key => exact h .key
  | dst => exact Memory.inside_writeBytes _ _ 0 r.image (by simpa [Result.image_length] using hfit) (h .dst)

/-- A stored result keeps the invariant when it fits and is of the type that CMD gives. -/
theorem State.Inv.succeed {s : State} (h : s.Inv) {r : Result} (htype : r.type = s.resultType)
    (hfit : bytesOf r.type r.count ≤ s.cfg.dstCap) : (s.succeed r).Inv := by
  obtain ⟨-, -, hcap⟩ := h.capsLegal
  have hlen := State.succeed_dstLen_toNat hcap hfit
  have hresult : (s.succeed r).resultType = r.type := (State.resultType_congr rfl).trans htype.symm
  exact {
    capsLegal := h.capsLegal
    statusLegal := show statusOk ∈ legalStatuses by decide
    wf := State.succeed_buf_wf h.wf r
    inside := State.succeed_buf_inside h.inside hfit
    resultFits := by rw [hlen]; exact (le_bytesOf r.type r.count).trans hfit
    resultWritten := by rw [hlen]; exact State.written_mono (le_bytesOf r.type r.count) (State.succeed_written s r)
    imageFits := fun _ => by rw [hlen, hresult]; exact hfit
    imageWritten := fun _ => by rw [hlen, hresult]; exact State.succeed_written s r
    failedEmpty := fun he => absurd (show statusErr statusOk = 0 by decide) he
    freshIdle := fun hs => absurd hs (show statusOk ≠ 0 by decide)
    sequencerIdle := ⟨rfl, rfl⟩ }

theorem State.Inv.complete {s t : State} (h : s.Inv) {x : Except Halt Result}
    (htype : ∀ r, x = .ok r → r.type = s.resultType) (hraise : x ≠ .error (.raise .lengthOverflow))
    (ht : s.complete x = .next t) : t.Inv := by
  rcases State.complete_next s t x ht with ⟨r, hr, hfit, rfl⟩ | ⟨r, -, -, rfl⟩ | ⟨e, hx, rfl⟩
  · exact h.succeed (htype r hr) hfit
  · exact h.errorEntry (by decide)
  · exact h.errorEntry fun he => hraise (he ▸ hx)

theorem State.Inv.completePending {s t : State} (h : s.Inv) (ht : s.completePending = .next t) : t.Inv := by
  unfold State.completePending at ht
  cases hd : decode s.cmd with
  | error =>
    rw [hd] at ht
    cases ht
    exact h.errorEntry (by decide)
  | ok i =>
    rw [hd] at ht
    refine h.complete (x := evaluate i s) ?_ ?_ ((exec_eq_complete i s).symm.trans ht)
    · exact fun r hr => (evaluate_type hr).trans (State.resultType_of_decode s i hd).symm
    · intro hx
      rcases evaluate_raise hx with he | he <;> cases he

theorem State.Inv.engineTurn {s t : State} (h : s.Inv) (ht : s.engineTurn = .next t) : t.Inv := by
  cases hb : s.busy with
  | true => exact h.completePending ((State.engineTurn_busy s hb).symm.trans ht)
  | false =>
    cases (State.engineTurn_idle s hb).symm.trans ht
    exact h

/-! ### The step -/

theorem step_of_host (s : State) (a : HostAction) (rest : List Turn) (h : s.turns = .host a :: rest) :
    step s = hostAccess a { s with turns := rest } := by
  simp only [step, State.takeTurn, h]

theorem State.Inv.step {s t : State} (h : s.Inv) (ht : step s = .next t) : t.Inv := by
  cases hturns : s.turns with
  | nil => exact h.engineTurn ((step_of_nil s hturns).symm.trans ht)
  | cons turn rest =>
    have hs := h.setTurns rest
    cases turn with
    | host a => exact hs.hostAccess ((step_of_host s a rest hturns).symm.trans ht)
    | engine => exact hs.engineTurn ((step_of_engine s rest hturns).symm.trans ht)
    | reset =>
      cases (step_of_reset s rest hturns).symm.trans ht
      exact hs.resetEvent

/-- Settles O21: each turn keeps the invariant, and a completion in particular because a legal command answers with a result
of the type that CMD gives and never raises LENGTH_OVERFLOW. -/
theorem stepKeepsTheInvariant : Obligations.StepKeepsTheInvariant := fun _ _ hs hstep => hs.step hstep

end Sys2Proof.Machine
end

section
/-! SUPPORT. What a completed command leaves: the frame of every command (spec/20_memory.md R60,
spec/46_host_access.md R307). -/

namespace Sys2Proof.Machine

/-- Everything a command that completes can do: store a result of its row's type that fits DST, or enter ENCODING or
OPERAND_RANGE, 46_host_access.md R307. -/
theorem exec_next {i : Instr} {s t : State} (h : exec i s = .next t) :
    (∃ r, evaluate i s = .ok r ∧ r.type = resultType i ∧ r.image.length ≤ s.cfg.dstCap ∧ t = s.succeed r) ∨
      t = s.errorEntry .encoding ∨ t = s.errorEntry .operandRange := by
  rw [exec_eq_complete] at h
  rcases State.complete_next s t (evaluate i s) h with ⟨r, hr, hfit, rfl⟩ | ⟨r, -, -, rfl⟩ | ⟨e, he, rfl⟩
  · exact .inl ⟨r, hr, evaluate_type hr, r.image_length.trans_le hfit, rfl⟩
  · exact .inr (.inr rfl)
  · rcases evaluate_raise he with rfl | rfl
    · exact .inr (.inl rfl)
    · exact .inr (.inr rfl)

/-- Settles O31: a completion is a stored result or one of two error entries, and each of these leaves the rest as it was. -/
theorem commandFrame : Obligations.CommandFrame := by
  intro i s t h
  rcases exec_next h with ⟨r, -, htype, hfit, rfl⟩ | rfl | rfl
  · have hsuccess := s.succeed_success r
    exact ⟨hsuccess.around, .inl ⟨hsuccess.status, r, htype, hsuccess, hfit⟩⟩
  · have hfailure := s.errorEntry_failure .encoding
    exact ⟨hfailure.around, .inr (.inl hfailure)⟩
  · have hfailure := s.errorEntry_failure .operandRange
    exact ⟨hfailure.around, .inr (.inr hfailure)⟩

end Sys2Proof.Machine
end

section
/-! SUPPORT. The decoder and the encoder are inverse to each other (spec/30_encoding.md R75 to R79), and the words of the
instructions are the twelve of R78. -/

namespace Sys2Proof

/-! ### Type bits -/

@[simp] theorem OperandType.bit_ofBit (b : Bool) : (OperandType.ofBit b).bit = b := by cases b <;> rfl

/-- Where no type bit may be set, exactly the fields with both clear are accepted, R77. -/
theorem fixedTypes_eq_ok_iff (f : CmdFields) (i j : Instr) :
    fixedTypes f i = .ok j ↔ f.tm = false ∧ f.tk = false ∧ i = j := by
  cases htm : f.tm <;> cases htk : f.tk <;> simp [fixedTypes, htm, htk]

/-- Where only TM is free, exactly the fields with TK clear are accepted, R77. -/
theorem freeTm_eq_ok_iff (f : CmdFields) (mk : OperandType → Instr) (j : Instr) :
    freeTm f mk = .ok j ↔ f.tk = false ∧ mk (.ofBit f.tm) = j := by
  cases htk : f.tk <;> simp [freeTm, htk]

/-! ### Fields and words -/

/-- A bit, as the field of width 1 that it is. -/
theorem ofBool_getLsbD_eq_extractLsb' (w : Word) (n : Nat) : BitVec.ofBool (w.getLsbD n) = w.extractLsb' n 1 := by
  refine BitVec.eq_of_getLsbD_eq_iff.mpr fun k hk => ?_
  obtain rfl : k = 0 := by omega
  simp

/-- The four fields are adjacent and make up the whole word, R75. -/
theorem wordOf_fieldsOf (w : Word) : wordOf (fieldsOf w) = w := by
  simp only [wordOf, fieldsOf, ofBool_getLsbD_eq_extractLsb']
  rw [BitVec.extractLsb'_append_extractLsb'_eq_extractLsb' (show 8 = 0 + 8 from rfl),
    BitVec.extractLsb'_append_extractLsb'_eq_extractLsb' (show 9 = 0 + (1 + 8) from rfl),
    BitVec.extractLsb'_append_extractLsb'_eq_extractLsb' (show 10 = 0 + (1 + (1 + 8)) from rfl)]
  exact BitVec.extractLsb'_eq_self

theorem fieldsOf_encode (i : Instr) : fieldsOf (encode i) = i.fields := by
  cases i with
  | utf8enc => exact Laws.FieldsReadBack.utf8enc.2
  | md5 tm => exact (Laws.FieldsReadBack.md5 tm).2
  | sha1 tm => exact (Laws.FieldsReadBack.sha1 tm).2
  | hmacsha1 tm tk => exact (Laws.FieldsReadBack.hmacsha1 tm tk).2
  | tohex => exact Laws.FieldsReadBack.tohex.2
  | fromhex => exact Laws.FieldsReadBack.fromhex.2
  | tobase64 => exact Laws.FieldsReadBack.tobase64.2

/-! ### Decoding and encoding -/

theorem decodeFields_fields (i : Instr) : decodeFields i.fields = .ok i := by
  cases i with
  | md5 tm | sha1 tm => cases tm <;> rfl
  | hmacsha1 tm tk => cases tm <;> cases tk <;> rfl
  | utf8enc | tohex | fromhex | tobase64 => rfl

/-- An instruction's fields are `f` when each of its four is. -/
theorem Instr.fields_eq {i : Instr} {f : CmdFields} (hop : f.op = i.opcode) (htm : f.tm = i.tmBit)
    (htk : f.tk = i.tkBit) (hres : f.reserved = 0) : i.fields = f := by
  cases f
  cases hop
  cases htm
  cases htk
  cases hres
  rfl

theorem fields_of_fixedTypes {f : CmdFields} {i j : Instr} (h : fixedTypes f i = .ok j) (hop : f.op = i.opcode)
    (htm : i.tmBit = false) (htk : i.tkBit = false) (hres : f.reserved = 0) : j.fields = f := by
  obtain ⟨hfm, hfk, rfl⟩ := (fixedTypes_eq_ok_iff f i j).mp h
  exact Instr.fields_eq hop (hfm.trans htm.symm) (hfk.trans htk.symm) hres

theorem fields_of_freeTm {f : CmdFields} {mk : OperandType → Instr} {j : Instr} (h : freeTm f mk = .ok j)
    (hop : ∀ ty, f.op = (mk ty).opcode) (htm : ∀ ty, (mk ty).tmBit = ty.bit) (htk : ∀ ty, (mk ty).tkBit = false)
    (hres : f.reserved = 0) : j.fields = f := by
  obtain ⟨hfk, rfl⟩ := (freeTm_eq_ok_iff f mk j).mp h
  exact Instr.fields_eq (hop _) (by simp [htm]) (hfk.trans (htk _).symm) hres

/-- The decoder forgets nothing: the fields it accepts are those of the instruction it answers, R75 to R79. -/
theorem fields_of_decodeFields {f : CmdFields} {i : Instr} (h : decodeFields f = .ok i) : i.fields = f := by
  simp only [decodeFields, ite_eq_iff, reduceCtorEq, and_false, false_or, or_false, ne_eq, not_not] at h
  obtain ⟨hres, -, ⟨hop, h⟩ | ⟨-, ⟨hop, h⟩ | ⟨-, ⟨hop, h⟩ | ⟨-, ⟨hop, h⟩ | ⟨-, ⟨hop, h⟩ | ⟨-, ⟨hop, h⟩ |
    ⟨-, hop, h⟩⟩⟩⟩⟩⟩⟩ := h
  · exact fields_of_fixedTypes h hop rfl rfl hres
  · exact fields_of_freeTm h (fun _ => hop) (fun _ => rfl) (fun _ => rfl) hres
  · exact fields_of_freeTm h (fun _ => hop) (fun _ => rfl) (fun _ => rfl) hres
  · cases h
    exact Instr.fields_eq hop (OperandType.bit_ofBit f.tm).symm (OperandType.bit_ofBit f.tk).symm hres
  · exact fields_of_fixedTypes h hop rfl rfl hres
  · exact fields_of_fixedTypes h hop rfl rfl hres
  · exact fields_of_fixedTypes h hop rfl rfl hres

theorem decode_encode (i : Instr) : decode (encode i) = .ok i := by
  rw [decode, fieldsOf_encode, decodeFields_fields]

theorem encode_of_decode {w : Word} {i : Instr} (h : decode w = .ok i) : encode i = w := by
  rw [encode, fields_of_decodeFields h, wordOf_fieldsOf]

theorem decode_eq_ok_iff (w : Word) (i : Instr) : decode w = .ok i ↔ encode i = w :=
  ⟨encode_of_decode, fun h => h ▸ decode_encode i⟩

/-! ### The twelve words -/

/-- The instruction of each word of R78, in R78's order. -/
def legalInstrs : List Instr := [
  .utf8enc, .md5 .bytes, .md5 .text, .sha1 .bytes, .sha1 .text, .hmacsha1 .bytes .bytes,
  .hmacsha1 .text .bytes, .hmacsha1 .bytes .text, .hmacsha1 .text .text, .tohex, .fromhex, .tobase64]

theorem legalWords_eq_map_encode : legalWords = legalInstrs.map encode := by decide

theorem mem_legalInstrs (i : Instr) : i ∈ legalInstrs := by
  cases i with
  | md5 tm | sha1 tm => cases tm <;> decide
  | hmacsha1 tm tk => cases tm <;> cases tk <;> decide
  | utf8enc | tohex | fromhex | tobase64 => decide

theorem mem_legalWords_iff (w : Word) : w ∈ legalWords ↔ ∃ i, encode i = w := by
  simp [legalWords_eq_map_encode, mem_legalInstrs]

/-- Settles O2: a word decodes exactly when it is the word of an instruction, and these words are the twelve. -/
theorem legalWordsAreTheTwelve : Obligations.LegalWordsAreTheTwelve := fun w =>
  (exists_congr (decode_eq_ok_iff w)).trans (mem_legalWords_iff w).symm

end Sys2Proof
end

section
/-! SUPPORT. The UTF-8 encoder as a map of texts: what it does with the first unit and with a concatenation
(spec/40_utf8_encoder.md R100 to R107). -/

namespace Sys2Proof.Machine

/-! ### The outcomes of an encoding form a monoid under `prepend` -/

@[simp] theorem prepend_ok_ok (x y : List Byte) : prepend (.ok x) (.ok y) = .ok (x ++ y) := rfl

@[simp] theorem prepend_ok_nil_left (r : Except CmdError (List Byte)) : prepend (.ok []) r = r := by
  cases r <;> rfl

@[simp] theorem prepend_ok_nil_right (b : Except CmdError (List Byte)) : prepend b (.ok []) = b := by
  cases b with
  | ok x => simp
  | error e => rfl

theorem prepend_assoc (a b c : Except CmdError (List Byte)) :
    prepend (prepend a b) c = prepend a (prepend b c) := by
  cases a with
  | error e => rfl
  | ok x =>
    cases b with
    | error e => rfl
    | ok y =>
      cases c with
      | error e => rfl
      | ok z => simp

/-! ### The seam of a concatenation -/

/-- The seam between `s` and `t` splits a surrogate pair, R107: `s` ends in a high surrogate and `t` starts with a low
one. -/
def SplitsPair (s t : List CodeUnit) : Prop :=
  (∃ x, s.getLast? = some x ∧ isHigh x) ∧ ∃ y, t.head? = some y ∧ isLow y

/-- `SplitsPair` in the numbers of 20_memory.md R52. -/
theorem splitsPair_iff (s t : List CodeUnit) : SplitsPair s t ↔
    (∃ x, s.getLast? = some x ∧ 0xD800 ≤ x.toNat ∧ x.toNat ≤ 0xDBFF) ∧
      ∃ y, t.head? = some y ∧ 0xDC00 ≤ y.toNat ∧ y.toNat ≤ 0xDFFF := by
  simp [SplitsPair, isHigh, isLow]

/-- Only the last unit before the seam and the first after it matter. -/
theorem SplitsPair.append_left {s t : List CodeUnit} (r : List CodeUnit) (h : SplitsPair s t) :
    SplitsPair (r ++ s) t := by
  obtain ⟨⟨x, hx, hhigh⟩, hlow⟩ := h
  exact ⟨⟨x, by simp [hx], hhigh⟩, hlow⟩

theorem splitsPair_singleton_cons (u v : CodeUnit) (t : List CodeUnit) :
    SplitsPair [u] (v :: t) ↔ isHigh u && isLow v := by
  simp [SplitsPair]

/-! ### What the encoder does with a text -/

/-- A surrogate pair is encoded as one code point, R104. -/
theorem utf8Encode_pair {u v : CodeUnit} (h : isHigh u && isLow v) (t : List CodeUnit) :
    utf8Encode (u :: v :: t) = prepend (.ok (enc4 (pairPoint u v))) (utf8Encode t) := by
  rw [utf8Encode, if_pos h]

/-- A unit that does not open a surrogate pair is encoded alone, R101 to R103 and R105. -/
theorem utf8Encode_cons {u : CodeUnit} {t : List CodeUnit} (h : ¬SplitsPair [u] t) :
    utf8Encode (u :: t) = prepend (encUnit u) (utf8Encode t) := by
  cases t with
  | nil => simp [utf8Encode]
  | cons v rest => rw [utf8Encode, if_neg (mt (splitsPair_singleton_cons u v rest).mpr h)]

/-- The encoder maps concatenation to `prepend`, errors included, where the seam splits no pair, R107. -/
theorem utf8Encode_append {s t : List CodeUnit} (h : ¬SplitsPair s t) :
    utf8Encode (s ++ t) = prepend (utf8Encode s) (utf8Encode t) := by
  induction s using utf8Encode.induct with
  | case1 => simp [utf8Encode]
  | case2 u => exact utf8Encode_cons h
  | case3 u v rest hp ih =>
    have hrest : ¬SplitsPair rest t := mt (SplitsPair.append_left [u, v]) h
    calc utf8Encode (u :: v :: (rest ++ t))
        = prepend (.ok (enc4 (pairPoint u v))) (utf8Encode (rest ++ t)) := utf8Encode_pair hp _
      _ = prepend (utf8Encode (u :: v :: rest)) (utf8Encode t) := by
        rw [ih hrest, utf8Encode_pair hp, prepend_assoc]
  | case4 u v rest hp ih =>
    have hrest : ¬SplitsPair (v :: rest) t := mt (SplitsPair.append_left [u]) h
    have hu (x : List CodeUnit) : ¬SplitsPair [u] (v :: x) := mt (splitsPair_singleton_cons u v x).mp hp
    calc utf8Encode (u :: v :: (rest ++ t))
        = prepend (encUnit u) (utf8Encode (v :: rest ++ t)) := utf8Encode_cons (hu _)
      _ = prepend (utf8Encode (u :: v :: rest)) (utf8Encode t) := by
        rw [ih hrest, utf8Encode_cons (hu _), prepend_assoc]

/-- The encoder is total, R107: its only error is ENCODING. -/
theorem utf8Encode_eq_ok_or_error (t : List CodeUnit) :
    (∃ b, utf8Encode t = .ok b) ∨ utf8Encode t = .error .encoding := by
  cases h : utf8Encode t with
  | ok b => exact .inl ⟨b, rfl⟩
  | error e => exact .inr (congrArg Except.error (utf8Encode_error t e h))

/-- A unit below 0x80 opens no surrogate pair. -/
theorem not_splitsPair_of_lt {u : CodeUnit} (hu : u.toNat < 0x80) (t : List CodeUnit) : ¬SplitsPair [u] t := by
  rintro ⟨⟨x, hx, hhigh⟩, -⟩
  obtain rfl : u = x := by simpa using hx
  simp only [isHigh, decide_eq_true_eq] at hhigh
  omega

/-- Units below 0x80 keep their values as bytes, R101. -/
theorem utf8Encode_of_forall_lt (t : List CodeUnit) (ht : ∀ u ∈ t, u.toNat < 0x80) :
    utf8Encode t = .ok (t.map fun u => BitVec.ofNat 8 u.toNat) := by
  induction t with
  | nil => rfl
  | cons u t ih =>
    obtain ⟨hu, ht⟩ := List.forall_mem_cons.mp ht
    rw [utf8Encode_cons (not_splitsPair_of_lt hu t), ih ht, encUnit, if_pos hu, prepend_ok_ok]
    rfl

/-- Settles O40: the monoid law is that of `prepend`, by `utf8Encode_append`, read at two texts that encode. -/
theorem utf8EncodeIsAMonoidMap : Obligations.Utf8EncodeIsAMonoidMap := by
  refine ⟨utf8Encode_eq_ok_or_error, fun s t a b hs ht hseam => ?_, rfl, utf8Encode_of_forall_lt⟩
  rw [utf8Encode_append (mt (splitsPair_iff s t).mp hseam), hs, ht, prepend_ok_ok]

end Sys2Proof.Machine
end

section
/-! SUPPORT. The padded message as a whole number of 64-byte blocks, and the blocks it is cut into (spec/41_md5.md
R120, R121; spec/20_memory.md R57). -/

namespace Sys2Proof.Machine

@[simp] theorem slice_length {α : Type} (b : List α) (i j : Nat) :
    (slice b i j).length = min (j - i) (b.length - i) := by
  simp [slice]

@[simp] theorem lengthWord_length (order : ByteOrder) (bits : Nat) : (lengthWord order bits).length = 8 := by
  cases order <;> rfl

theorem pad_length (m : List Byte) (order : ByteOrder) :
    (pad m order).length = m.length + 1 + padZeros m.length + 8 := by
  simp only [pad, rep, List.length_append, List.length_singleton, List.length_replicate, lengthWord_length]

/-- The zeros of R120 fill the last block and no more, R121. -/
theorem add_padZeros_eq (n : Nat) : n + 1 + padZeros n + 8 = 64 * ((n + 8) / 64 + 1) := by
  unfold padZeros
  omega

theorem pad_length_eq_blocks (m : List Byte) (order : ByteOrder) :
    (pad m order).length = 64 * ((m.length + 8) / 64 + 1) :=
  (pad_length m order).trans (add_padZeros_eq m.length)

@[simp] theorem blocks_length (p : List Byte) : (blocks p).length = p.length / 64 := by
  simp [blocks]

theorem blocks_getElem? {p : List Byte} {j : Nat} (hj : j < p.length / 64) :
    (blocks p)[j]? = some (slice p (64 * j) (64 * j + 64)) := by
  simp [blocks, hj]

/-- Every block is full: the bytes left over after the last whole block are in none. -/
theorem block_length {p : List Byte} {j : Nat} (hj : j < p.length / 64) :
    (slice p (64 * j) (64 * j + 64)).length = 64 := by
  rw [slice_length]
  omega

/-- Settles O44: the padded length is 64 times the block count, by `pad_length_eq_blocks`, so that `blocks` cuts it without
a rest; the boundary cases are computed. -/
theorem paddedBlockCount : Obligations.PaddedBlockCount := by
  refine ⟨fun m order => ?_, by decide⟩
  have hlen := pad_length_eq_blocks m order
  have hcount : (pad m order).length / 64 = (m.length + 8) / 64 + 1 := by omega
  refine ⟨pad_length m order, by omega, by omega, (blocks_length _).trans hcount, fun j hj => ?_⟩
  rw [← hcount] at hj
  exact ⟨blocks_getElem? hj, block_length hj⟩

end Sys2Proof.Machine
end

section
/-! SUPPORT. The message index and the rotation amount of the 64 rounds of MD5 (spec/41_md5.md R126, R128). -/

namespace Sys2Proof.Machine

/-- Settles O46: both tables are closed lists of 64 numbers, computed from the formula of R126 and the table of R128. -/
theorem md5IndexAndRotationTables : Obligations.Md5IndexAndRotationTables :=
  ⟨by decide, by decide⟩

end Sys2Proof.Machine
end

section
/-! SUPPORT. The message schedule of SHA-1 at each word (spec/42_sha1.md R152, R153). -/

namespace Sys2Proof.Machine

/-- The word that `sha1Expand` appends, the right side of R153. -/
def sha1Next (w : List Word) (q : Nat) : Word :=
  rotl (w.getD (q - 3) 0 ^^^ w.getD (q - 8) 0 ^^^ w.getD (q - 14) 0 ^^^ w.getD (q - 16) 0) 1

theorem sha1Expand_eq (w : List Word) (q : Nat) : sha1Expand w q = w ++ [sha1Next w q] := rfl

/-- The next word reads only words already there, so words appended later do not change it. -/
theorem sha1Next_append {w : List Word} {q : Nat} (hpos : 0 < q) (hq : q ≤ w.length) (v : List Word) :
    sha1Next (w ++ v) q = sha1Next w q := by
  have hread : ∀ k, 0 < k → (w ++ v).getD (q - k) 0 = w.getD (q - k) 0 := fun k hk =>
    List.getD_append w v 0 (q - k) (by omega)
  simp only [sha1Next, hread, Nat.ofNat_pos]

@[simp] theorem sha1Words_length (blk : List Byte) : (sha1Words blk).length = 16 := rfl

theorem sha1Words_getD (blk : List Byte) {q : Nat} (hq : q < 16) :
    (sha1Words blk).getD q 0 = be32 (slice blk (4 * q) (4 * q + 4)) := by
  simp [sha1Words, hq]

@[simp] theorem foldl_sha1Expand_length (qs : List Nat) (w : List Word) :
    (qs.foldl sha1Expand w).length = w.length + qs.length := by
  induction qs generalizing w with
  | nil => rfl
  | cons q qs ih =>
    rw [List.foldl_cons, ih, sha1Expand_eq, List.length_append, List.length_singleton, List.length_cons]
    omega

/-- The expansion only appends: the words it starts from stay where they are. -/
theorem prefix_foldl_sha1Expand (qs : List Nat) (w : List Word) : w <+: qs.foldl sha1Expand w := by
  induction qs generalizing w with
  | nil => exact List.prefix_rfl
  | cons q qs ih => exact (List.prefix_append w _).trans (ih (sha1Expand w q))

@[simp] theorem sha1Schedule_length (blk : List Byte) : (sha1Schedule blk).length = 80 := by
  simp [sha1Schedule]

theorem sha1Schedule_getD_of_lt (blk : List Byte) {q : Nat} (hq : q < 16) :
    (sha1Schedule blk).getD q 0 = (sha1Words blk).getD q 0 := by
  obtain ⟨v, hv⟩ : sha1Words blk <+: sha1Schedule blk := prefix_foldl_sha1Expand _ _
  rw [← hv, List.getD_append _ _ _ _ (by simpa using hq)]

/-- The schedule cut at word `q`: the `q` words before it, the word made from them, and the words made later. -/
theorem sha1Schedule_eq_append (blk : List Byte) {q : Nat} (hlo : 16 ≤ q) (hhi : q < 80) :
    ∃ w v, w.length = q ∧ sha1Schedule blk = w ++ sha1Next w q :: v := by
  have hcut : List.range' 16 64 = List.range' 16 (q - 16) ++ q :: List.range' (q + 1) (79 - q) := by
    have hrest := List.range'_append_1 (s := 16) (m := q - 16) (n := 79 - q + 1)
    rwa [Nat.add_sub_cancel' hlo, List.range'_succ, show q - 16 + (79 - q + 1) = 64 by omega, eq_comm] at hrest
  obtain ⟨v, hv⟩ := prefix_foldl_sha1Expand (List.range' (q + 1) (79 - q))
    (sha1Expand ((List.range' 16 (q - 16)).foldl sha1Expand (sha1Words blk)) q)
  refine ⟨(List.range' 16 (q - 16)).foldl sha1Expand (sha1Words blk), v, ?_, ?_⟩
  · rw [foldl_sha1Expand_length, sha1Words_length, List.length_range']
    omega
  · rw [sha1Schedule, hcut, List.foldl_append, List.foldl_cons, ← hv, sha1Expand_eq, List.append_assoc,
      List.singleton_append]

theorem sha1Schedule_getD_of_ge (blk : List Byte) {q : Nat} (hlo : 16 ≤ q) (hhi : q < 80) :
    (sha1Schedule blk).getD q 0 = sha1Next (sha1Schedule blk) q := by
  obtain ⟨w, v, hlen, heq⟩ := sha1Schedule_eq_append blk hlo hhi
  rw [heq, sha1Next_append (by omega) hlen.ge, List.getD_append_right _ _ _ _ hlen.le, hlen, Nat.sub_self,
    List.getD_cons_zero]

/-- Settles O45: the expansion only appends, so the first sixteen words stay those of the block, and each later word is the
one made from the words before it, which the whole schedule still holds. -/
theorem sha1ScheduleRecurrence : Obligations.Sha1ScheduleRecurrence := fun blk =>
  ⟨sha1Schedule_length blk,
    fun _ hq => (sha1Schedule_getD_of_lt blk hq).trans (sha1Words_getD blk hq),
    fun _ hlo hhi => sha1Schedule_getD_of_ge blk hlo hhi⟩

end Sys2Proof.Machine
end

section
/-! SUPPORT. The normalised HMAC key and the property of long keys (spec/43_hmac_sha1.md R175 to R180). -/

namespace Sys2Proof.Machine

@[simp] theorem sha1_length (m : List Byte) : (sha1 m).length = 20 := sha1Digest_length _

theorem normKey_of_long {k : List Byte} (hk : 64 < k.length) : normKey k = sha1 k ++ List.replicate 44 0 := if_pos hk

theorem normKey_of_short {k : List Byte} (hk : k.length ≤ 64) :
    normKey k = k ++ List.replicate (64 - k.length) 0 := if_neg hk.not_gt

@[simp] theorem normKey_length (k : List Byte) : (normKey k).length = 64 := by
  rcases Nat.lt_or_ge 64 k.length with hk | hk
  · simp [normKey_of_long hk]
  · simp [normKey_of_short hk, hk]

/-- The digest of a long key is a short key: it is not hashed again, and its 20 bytes lack the 44 zeros that R175 appends. -/
theorem normKey_sha1_of_long {k : List Byte} (hk : 64 < k.length) : normKey (sha1 k) = normKey k := by
  rw [normKey_of_long hk, normKey_of_short (by simp), sha1_length]

/-- The key enters the keyed digest only by its normal form, R177 to R179. -/
theorem hmacSha1_congr_normKey (m : List Byte) {k k' : List Byte} (h : normKey k = normKey k') :
    hmacSha1 m k = hmacSha1 m k' := by
  simp only [hmacSha1, h]

/-- Settles O50: the two cases of R175, of which the 64-byte key falls into the second, with no zero bytes to append. -/
theorem normalisedKey : Obligations.NormalisedKey := fun k =>
  ⟨normKey_length k, normKey_of_long, normKey_of_short, fun hk => by simp [normKey_of_short hk.le, hk]⟩

/-- Settles O51: a long key and its digest have the same normal form, and the keyed digest depends on that alone. -/
theorem longKeyEqualsItsDigest : Obligations.LongKeyEqualsItsDigest := fun m k hk =>
  ⟨sha1_length k, hmacSha1_congr_normKey m (normKey_sha1_of_long hk).symm⟩

end Sys2Proof.Machine
end

section
/-! SUPPORT. The hex codec: the values and the characters of its digits, and the text of a byte sequence as the digits of its
nibbles (spec/44_hex_codec.md R190 to R195). -/

namespace Sys2Proof.Machine

/-! ### One digit -/

theorem hexValue_of_decimal {u : CodeUnit} (hlo : 0x30 ≤ u.toNat) (hhi : u.toNat ≤ 0x39) :
    hexValue u = some (u.toNat - 0x30) := if_pos ⟨hlo, hhi⟩

theorem hexValue_of_lowercase {u : CodeUnit} (hlo : 0x61 ≤ u.toNat) (hhi : u.toNat ≤ 0x66) :
    hexValue u = some (u.toNat - 0x61 + 10) := (if_neg (by omega)).trans (if_pos ⟨hlo, hhi⟩)

theorem hexValue_of_uppercase {u : CodeUnit} (hlo : 0x41 ≤ u.toNat) (hhi : u.toNat ≤ 0x46) :
    hexValue u = some (u.toNat - 0x41 + 10) :=
  (if_neg (by omega)).trans ((if_neg (by omega)).trans (if_pos ⟨hlo, hhi⟩))

/-- What a hex digit can be, R193: each range with its value. -/
theorem hexValue_cases {u : CodeUnit} {v : Nat} (h : hexValue u = some v) :
    ((0x30 ≤ u.toNat ∧ u.toNat ≤ 0x39) ∧ v = u.toNat - 0x30) ∨
    ((0x61 ≤ u.toNat ∧ u.toNat ≤ 0x66) ∧ v = u.toNat - 0x61 + 10) ∨
    ((0x41 ≤ u.toNat ∧ u.toNat ≤ 0x46) ∧ v = u.toNat - 0x41 + 10) := by
  unfold hexValue at h
  split_ifs at h with hdec hlow hup <;> cases h
  · exact .inl ⟨hdec, rfl⟩
  · exact .inr (.inl ⟨hlow, rfl⟩)
  · exact .inr (.inr ⟨hup, rfl⟩)

/-- The three ranges of R193, and no others, hold the hex digits. -/
theorem hexValue_eq_none_iff (u : CodeUnit) :
    hexValue u = none ↔ ¬((0x30 ≤ u.toNat ∧ u.toNat ≤ 0x39) ∨ (0x61 ≤ u.toNat ∧ u.toNat ≤ 0x66) ∨
      (0x41 ≤ u.toNat ∧ u.toNat ≤ 0x46)) := by
  constructor
  · rintro hnone (⟨hlo, hhi⟩ | ⟨hlo, hhi⟩ | ⟨hlo, hhi⟩)
    · cases (hexValue_of_decimal hlo hhi).symm.trans hnone
    · cases (hexValue_of_lowercase hlo hhi).symm.trans hnone
    · cases (hexValue_of_uppercase hlo hhi).symm.trans hnone
  · intro hout
    cases hv : hexValue u with
    | none => rfl
    | some v => exact absurd ((hexValue_cases hv).imp And.left (.imp And.left And.left)) hout

theorem hexValue_lt {u : CodeUnit} {v : Nat} (h : hexValue u = some v) : v < 16 := by
  rcases hexValue_cases h with h | h | h <;> omega

theorem hexValue_hexDigit {v : Nat} (hv : v < 16) : hexValue (hexDigit v) = some v := by
  interval_cases v <;> decide

/-- A text's unit with `A` to `F` replaced by `a` to `f`, R195. -/
def lowerHex (u : CodeUnit) : CodeUnit :=
  if 0x41 ≤ u.toNat ∧ u.toNat ≤ 0x46 then BitVec.ofNat 16 (u.toNat + 0x20) else u

/-- A digit's value is rendered as the digit in lowercase. -/
theorem hexDigit_of_hexValue {u : CodeUnit} {v : Nat} (h : hexValue u = some v) : hexDigit v = lowerHex u := by
  apply BitVec.eq_of_toNat_eq
  rcases hexValue_cases h with ⟨⟨hlo, hhi⟩, rfl⟩ | ⟨⟨hlo, hhi⟩, rfl⟩ | ⟨⟨hlo, hhi⟩, rfl⟩
  · rw [hexDigit, lowerHex, if_pos (by omega), if_neg (by omega), BitVec.toNat_ofNat]
    omega
  · rw [hexDigit, lowerHex, if_neg (by omega), if_neg (by omega), BitVec.toNat_ofNat]
    omega
  · rw [hexDigit, lowerHex, if_neg (by omega), if_pos (by omega)]
    simp only [BitVec.toNat_ofNat]
    omega

/-! ### The nibbles of a byte sequence -/

/-- The high and the low four bits of each byte, in the order in which R191 renders them. -/
def nibbles (b : List Byte) : List Nat := b.flatMap fun x => [x.toNat / 16, x.toNat % 16]

@[simp] theorem nibbles_nil : nibbles [] = [] := rfl

@[simp] theorem nibbles_cons (x : Byte) (b : List Byte) :
    nibbles (x :: b) = x.toNat / 16 :: x.toNat % 16 :: nibbles b := rfl

@[simp] theorem nibbles_length (b : List Byte) : (nibbles b).length = 2 * b.length := by
  induction b with
  | nil => rfl
  | cons x b ih =>
    simp only [nibbles_cons, List.length_cons, ih]
    omega

theorem nibbles_lt {b : List Byte} {v : Nat} (h : v ∈ nibbles b) : v < 16 := by
  simp only [nibbles, List.mem_flatMap, List.mem_cons, List.not_mem_nil, or_false] at h
  obtain ⟨x, -, rfl | rfl⟩ := h
  · have := x.isLt
    omega
  · omega

theorem nibbles_high (b : List Byte) (q : Nat) : (nibbles b)[2 * q]? = b[q]?.map (·.toNat / 16) := by
  induction b generalizing q with
  | nil => simp
  | cons x b ih =>
    cases q with
    | zero => rfl
    | succ q => exact ih q

theorem nibbles_low (b : List Byte) (q : Nat) : (nibbles b)[2 * q + 1]? = b[q]?.map (·.toNat % 16) := by
  induction b generalizing q with
  | nil => simp
  | cons x b ih =>
    cases q with
    | zero => rfl
    | succ q => exact ih q

/-- A byte is put together from its two halves, as R194 does it. -/
theorem byte_of_nibbles (x : Byte) : BitVec.ofNat 8 (16 * (x.toNat / 16) + x.toNat % 16) = x := by
  rw [Nat.div_add_mod, BitVec.ofNat_toNat, BitVec.setWidth_eq]

theorem nibbles_byte {hi lo : Nat} (hhi : hi < 16) (hlo : lo < 16) (b : List Byte) :
    nibbles (BitVec.ofNat 8 (16 * hi + lo) :: b) = hi :: lo :: nibbles b := by
  have hx : (BitVec.ofNat 8 (16 * hi + lo)).toNat = 16 * hi + lo := by
    rw [BitVec.toNat_ofNat]
    omega
  rw [nibbles_cons, hx, show (16 * hi + lo) / 16 = hi by omega, show (16 * hi + lo) % 16 = lo by omega]

/-! ### The two functions -/

/-- ToHex renders the nibbles one by one, R191. -/
theorem toHex_eq_map_nibbles (b : List Byte) : toHex b = (nibbles b).map hexDigit := by
  have hhigh (x : Byte) : field x.toNat 7 4 = x.toNat / 16 := by
    have := x.isLt
    simp only [field]
    omega
  have hlow (x : Byte) : field x.toNat 3 0 = x.toNat % 16 := by simp [field]
  simp [toHex, nibbles, List.map_flatMap, hhigh, hlow]

theorem fromHex_pair {u v : CodeUnit} {hi lo : Nat} (hu : hexValue u = some hi) (hv : hexValue v = some lo)
    (rest : List CodeUnit) :
    fromHex (u :: v :: rest) = (fromHex rest).map (BitVec.ofNat 8 (16 * hi + lo) :: ·) := by
  rw [fromHex, hu, hv]

/-- The bytes FromHex gives have the values of the text's digits as their nibbles, R194. -/
theorem map_hexValue_of_fromHex {s : List CodeUnit} {b : List Byte} (h : fromHex s = .ok b) :
    s.map hexValue = (nibbles b).map some := by
  induction s using fromHex.induct generalizing b with
  | case1 => cases h; rfl
  | case2 u => cases h
  | case3 u v rest hi lo hv hu ih =>
    rw [fromHex_pair hu hv] at h
    obtain ⟨r, hr, rfl⟩ := exceptMap_eq_ok h
    rw [nibbles_byte (hexValue_lt hu) (hexValue_lt hv)]
    simp [hu, hv, ih hr]
  | case4 u v rest hn =>
    rw [fromHex] at h
    split at h
    · exact absurd ‹_› (hn _ _ ‹_›)
    · cases h

/-- A text whose digits have the values of a byte sequence's nibbles is parsed to that byte sequence, R194. -/
theorem fromHex_of_map_hexValue {s : List CodeUnit} {b : List Byte} (h : s.map hexValue = (nibbles b).map some) :
    fromHex s = .ok b := by
  induction b generalizing s with
  | nil =>
    obtain rfl := List.map_eq_nil_iff.mp h
    rfl
  | cons x b ih =>
    obtain ⟨u, s', rfl, hu, h⟩ := List.map_eq_cons_iff.mp h
    obtain ⟨v, rest, rfl, hv, h⟩ := List.map_eq_cons_iff.mp h
    rw [fromHex_pair hu hv, ih h, byte_of_nibbles]
    rfl

/-- An accepted text has two units for each byte. -/
theorem length_of_fromHex {s : List CodeUnit} {b : List Byte} (h : fromHex s = .ok b) : s.length = 2 * b.length := by
  simpa using congrArg List.length (map_hexValue_of_fromHex h)

/-- Every unit of an accepted text is a hex digit. -/
theorem hexValue_ne_none_of_fromHex {s : List CodeUnit} {b : List Byte} (h : fromHex s = .ok b) {u : CodeUnit}
    (hu : u ∈ s) : hexValue u ≠ none := by
  have hmem := List.mem_map_of_mem (f := hexValue) hu
  rw [map_hexValue_of_fromHex h, List.mem_map] at hmem
  obtain ⟨v, -, hv⟩ := hmem
  simp [← hv]

/-- FromHex accepts every text of an even number of hex digits, R194. -/
theorem exists_fromHex_eq_ok {s : List CodeUnit} (heven : s.length % 2 = 0) (hdig : ∀ u ∈ s, hexValue u ≠ none) :
    ∃ b, fromHex s = .ok b := by
  induction s using fromHex.induct with
  | case1 => exact ⟨[], rfl⟩
  | case2 u => cases heven
  | case3 u v rest hi lo hv hu ih =>
    obtain ⟨r, hr⟩ := ih ((Nat.add_mod_right rest.length 2).symm.trans heven) fun w hw => hdig w (by simp [hw])
    exact ⟨_, by rw [fromHex_pair hu hv, hr]; rfl⟩
  | case4 u v rest hn =>
    obtain ⟨hi, hu⟩ := Option.ne_none_iff_exists'.mp (hdig u (by simp))
    obtain ⟨lo, hv⟩ := Option.ne_none_iff_exists'.mp (hdig v (by simp))
    exact absurd hv (hn hi lo hu)

theorem fromHex_eq_encoding_iff (s : List CodeUnit) :
    fromHex s = .error .encoding ↔ s.length % 2 = 1 ∨ ∃ u ∈ s, hexValue u = none := by
  constructor
  · intro herr
    by_contra! hgood
    obtain ⟨hodd, hdig⟩ := hgood
    obtain ⟨b, hb⟩ := exists_fromHex_eq_ok (by omega) hdig
    cases herr.symm.trans hb
  · intro hbad
    cases hs : fromHex s with
    | error e => rw [fromHex_error s e hs]
    | ok b =>
      have hlen := length_of_fromHex hs
      rcases hbad with hodd | ⟨u, hmem, hu⟩
      · omega
      · exact absurd hu (hexValue_ne_none_of_fromHex hs hmem)

/-- The units of an accepted text stand for the nibbles at the same places. -/
theorem getElem?_bind_hexValue {s : List CodeUnit} {b : List Byte} (h : fromHex s = .ok b) (q : Nat) :
    s[q]?.bind hexValue = (nibbles b)[q]? := by
  have hmap : (s.map hexValue)[q]? = ((nibbles b).map some)[q]? := by rw [map_hexValue_of_fromHex h]
  rw [List.getElem?_map, List.getElem?_map] at hmap
  calc s[q]?.bind hexValue
      = (s[q]?.map hexValue).bind id := by rw [Option.bind_map, Function.id_comp]
    _ = ((nibbles b)[q]?.map some).bind id := by rw [hmap]
    _ = (nibbles b)[q]? := by rw [Option.bind_map, Function.id_comp, Option.bind_fun_some]

/-! ### The statements -/

/-- Settles O53: the nibbles of the bytes are the values of the digits, in both directions, so it is enough that one digit
comes back as its value and one value as its digit in lowercase. -/
theorem hexRoundTrip : Obligations.HexRoundTrip := by
  refine ⟨fun b => fromHex_of_map_hexValue ?_, fun s b h => ?_⟩
  · rw [toHex_eq_map_nibbles, List.map_map]
    exact List.map_congr_left fun v hv => hexValue_hexDigit (nibbles_lt hv)
  · have hdigit : ∀ u ∈ s, (hexValue u).map hexDigit = some (lowerHex u) := fun u hu => by
      obtain ⟨v, hv⟩ := Option.ne_none_iff_exists'.mp (hexValue_ne_none_of_fromHex h hu)
      rw [hv, Option.map_some, hexDigit_of_hexValue hv]
    refine List.map_injective_iff.mpr (Option.some_injective _) ?_
    calc (toHex b).map some
        = ((nibbles b).map some).map (Option.map hexDigit) := by simp [toHex_eq_map_nibbles]
      _ = s.map fun u => (hexValue u).map hexDigit := by rw [← map_hexValue_of_fromHex h, List.map_map]; rfl
      _ = (s.map lowerHex).map some := by rw [List.map_congr_left hdigit, List.map_map]; rfl

/-- Settles O55: the failing texts are those that are not accepted, and the digits of an accepted text are the nibbles of the
bytes. -/
theorem fromHexAcceptsExactlyHexPairs : Obligations.FromHexAcceptsExactlyHexPairs := by
  refine fun s => ⟨fromHex_eq_encoding_iff s, fun heven hdig => ?_⟩
  obtain ⟨b, hb⟩ := exists_fromHex_eq_ok heven hdig
  have hlen : b.length = s.length / 2 := by
    have := length_of_fromHex hb
    omega
  refine ⟨b, hb, hlen, fun q hq => ?_⟩
  have hbq : b[q]? = some b[q] := List.getElem?_eq_getElem (hlen ▸ hq)
  refine ⟨b[q].toNat / 16, b[q].toNat % 16, ?_, ?_, ?_⟩
  · rw [getElem?_bind_hexValue hb, nibbles_high, hbq, Option.map_some]
  · rw [getElem?_bind_hexValue hb, nibbles_low, hbq, Option.map_some]
  · rw [hbq, byte_of_nibbles]

/-- Settles O56: the digits at 2q and 2q + 1 are those of the two nibbles of byte q. -/
theorem toHexDigits : Obligations.ToHexDigits := by
  intro b
  rw [toHex_eq_map_nibbles]
  refine ⟨by simp, fun q hq => ⟨?_, ?_⟩⟩
  · rw [List.getElem?_map, nibbles_high, List.getElem?_eq_getElem hq]
    rfl
  · rw [List.getElem?_map, nibbles_low, List.getElem?_eq_getElem hq]
    rfl

/-- Settles O54: the value in each range of R193, and none outside them. -/
theorem hexValueOfDigits : Obligations.HexValueOfDigits :=
  ⟨fun _ => hexValue_of_decimal, fun _ => hexValue_of_lowercase, fun _ => hexValue_of_uppercase, hexValue_eq_none_iff⟩

end Sys2Proof.Machine
end

section
/-! SUPPORT. The Base64 encoder group by group, and what spec/45_base64_codec.md R205 to R208 state of it. -/

namespace Sys2Proof.Machine

/-! ### The six-bit fields of one group -/

theorem field_byte_high_six (x : Byte) : field x.toNat 7 2 = x.toNat / 4 := by
  have := x.isLt
  simp only [field]
  omega

theorem field_byte_high_four (x : Byte) : field x.toNat 7 4 = x.toNat / 16 := by
  have := x.isLt
  simp only [field]
  omega

theorem field_byte_high_two (x : Byte) : field x.toNat 7 6 = x.toNat / 64 := by
  have := x.isLt
  simp only [field]
  omega

/-- A field that starts at bit 0 is a remainder, R11. -/
theorem field_low (v hi : Nat) : field v hi 0 = v % 2 ^ (hi + 1) := by simp [field]

/-- The four characters of a 24-bit number, most significant six bits first, R206. -/
def b64Group (g : Nat) : List CodeUnit :=
  [b64Char (g / 262144), b64Char (g / 4096 % 64), b64Char (g / 64 % 64), b64Char (g % 64)]

/-- A full group of three bytes gives the characters of its 24-bit number, and the rest is encoded by itself, R206. -/
theorem toBase64_full (x y z : Byte) (rest : List Byte) :
    toBase64 (x :: y :: z :: rest) = b64Group (65536 * x.toNat + 256 * y.toNat + z.toNat) ++ toBase64 rest := by
  have hx := x.isLt
  have hy := y.isLt
  have hz := z.isLt
  have h1 : x.toNat / 4 = (65536 * x.toNat + 256 * y.toNat + z.toNat) / 262144 := by omega
  have h2 : 16 * (x.toNat % 4) + y.toNat / 16 = (65536 * x.toNat + 256 * y.toNat + z.toNat) / 4096 % 64 := by omega
  have h3 : 4 * (y.toNat % 16) + z.toNat / 64 = (65536 * x.toNat + 256 * y.toNat + z.toNat) / 64 % 64 := by omega
  have h4 : z.toNat % 64 = (65536 * x.toNat + 256 * y.toNat + z.toNat) % 64 := by omega
  simp only [toBase64, field_byte_high_six, field_byte_high_four, field_byte_high_two, field_low, Nat.reduceAdd,
    Nat.reducePow, b64Group, h1, h2, h3, h4]

/-- One byte left over gives two characters and two pads, R207. -/
theorem toBase64_one (x : Byte) :
    toBase64 [x] = [b64Char (x.toNat / 4), b64Char (16 * (x.toNat % 4)), b64Pad, b64Pad] := by
  simp [toBase64, field_byte_high_six, field_low]

/-- Two bytes left over give three characters and one pad, R207. -/
theorem toBase64_two (x y : Byte) :
    toBase64 [x, y] = [b64Char (x.toNat / 4), b64Char (16 * (x.toNat % 4) + y.toNat / 16),
      b64Char (4 * (y.toNat % 16)), b64Pad] := by
  simp [toBase64, field_byte_high_six, field_byte_high_four, field_low]

/-! ### The groups of a whole text -/

theorem length_toBase64 (b : List Byte) : (toBase64 b).length = 4 * ((b.length + 2) / 3) := by
  induction b using toBase64.induct with
  | case1 => rfl
  | case2 x => simp [toBase64_one]
  | case3 x y => simp [toBase64_two]
  | case4 x y z rest ih =>
    simp only [toBase64_full, b64Group, List.length_append, List.length_cons, List.length_nil, ih]
    omega

/-- Four characters are dropped for each group of three bytes, whatever group is the last one, R208. -/
theorem drop_toBase64 (b : List Byte) (q : Nat) : (toBase64 b).drop (4 * q) = toBase64 (b.drop (3 * q)) := by
  induction q generalizing b with
  | zero => rfl
  | succ q ih =>
    rw [Nat.mul_succ, Nat.mul_succ, Nat.add_comm, Nat.add_comm (3 * q), ← List.drop_drop, ← List.drop_drop, ← ih]
    congr 1
    match b with
    | [] | [x] | [x, y] | x :: y :: z :: rest => rfl

theorem getElem?_toBase64 (b : List Byte) (q j : Nat) :
    (toBase64 b)[4 * q + j]? = (toBase64 (b.drop (3 * q)))[j]? := by
  rw [← drop_toBase64, List.getElem?_drop]

/-! ### The statements -/

/-- Settles O57: by `drop_toBase64` the text from character 4q on is that of the bytes from 3q on, which begin with the group
in question. -/
theorem base64Groups : Obligations.Base64Groups := by
  intro b
  refine ⟨length_toBase64 b, fun q hq g hg => ?_, fun q hq x hx => ?_, fun q hq x y hx hy => ?_⟩
  · have hdrop : b.drop (3 * q) = b[3 * q] :: b[3 * q + 1] :: b[3 * q + 2] :: b.drop (3 * q + 3) := by
      rw [List.drop_eq_getElem_cons, List.drop_eq_getElem_cons, List.drop_eq_getElem_cons]
    rw [List.getD_eq_getElem _ _ (by omega), List.getD_eq_getElem _ _ (by omega), List.getD_eq_getElem _ _ hq] at hg
    have hgroup : toBase64 (b.drop (3 * q)) = b64Group g ++ toBase64 (b.drop (3 * q + 3)) := by
      rw [hdrop, toBase64_full, hg]
    have hchar (j : Nat) : (toBase64 b)[4 * q + j]? = (b64Group g ++ toBase64 (b.drop (3 * q + 3)))[j]? := by
      rw [getElem?_toBase64, hgroup]
    exact ⟨hchar 0, hchar 1, hchar 2, hchar 3⟩
  · have hdrop : b.drop (3 * q) = [b[3 * q]] := by
      rw [List.drop_eq_getElem_cons, List.drop_eq_nil_of_le (by omega)]
    rw [List.getD_eq_getElem _ _ (by omega)] at hx
    rw [drop_toBase64, hdrop, toBase64_one, hx, b64Pad]
  · have hdrop : b.drop (3 * q) = [b[3 * q], b[3 * q + 1]] := by
      rw [List.drop_eq_getElem_cons, List.drop_eq_getElem_cons, List.drop_eq_nil_of_le (by omega)]
    rw [List.getD_eq_getElem _ _ (by omega)] at hx hy
    rw [drop_toBase64, hdrop, toBase64_two, hx, hy, b64Pad]

/-- Settles O58: the alphabet is a closed list of 64 characters, computed from the ranges of R205. -/
theorem base64Alphabet : Obligations.Base64Alphabet := ⟨rfl, by decide⟩

end Sys2Proof.Machine
end

section
/-! SUPPORT. What each host access does (spec/46_host_access.md R300 to R308): an equation per access, while a command is
pending and while none is. -/

namespace Sys2Proof.Machine

/-! ### Register accesses -/

/-- A read answers the register's value unless it reads DST_LEN while busy, 46_host_access.md R301 and R308. -/
theorem State.readReg_eq_reply {s : State} {r : Reg} (h : s.busy = false ∨ r ≠ .dstLen) :
    s.readReg r = s.reply (.reg r (s.reg r)) := by
  rcases h with hidle | hne
  · simp [State.readReg, hidle]
  · simp [State.readReg, hne]

theorem State.readReg_dstLen_of_busy {s : State} (h : s.busy = true) :
    s.readReg .dstLen = s.replyDrawn (.reg .dstLen (Config.busyReadWord s.draws)) := by
  simp [State.readReg, h]

theorem State.writeReg_of_busy {s : State} (h : s.busy = true) (r : Reg) (v : Word) : s.writeReg r v = s := if_pos h

theorem State.writeReg_cmd_of_idle {s : State} (h : s.busy = false) (v : Word) : s.writeReg .cmd v = s.issue v := by
  simp [State.writeReg, h]

theorem State.writeReg_srcLen_of_idle {s : State} (h : s.busy = false) (v : Word) :
    s.writeReg .srcLen v = { s with srcLen := v } := by
  simp [State.writeReg, h]

theorem State.writeReg_keyLen_of_idle {s : State} (h : s.busy = false) (v : Word) :
    s.writeReg .keyLen v = { s with keyLen := v } := by
  simp [State.writeReg, h]

@[simp] theorem State.writeReg_status (s : State) (v : Word) : s.writeReg .status v = s := ite_self s

@[simp] theorem State.writeReg_dstLen (s : State) (v : Word) : s.writeReg .dstLen v = s := ite_self s

/-- Of the legal values of STATUS only 0x00000001 has BUSY set, 10_state.md R24. -/
theorem State.Inv.status_of_busy {s : State} (h : s.Inv) (hbusy : s.busy = true) : s.status = 0x00000001 := by
  have honly : legalStatuses.filter statusBusy = [0x00000001] := by decide
  have hmem : s.status ∈ legalStatuses.filter statusBusy := List.mem_filter.mpr ⟨h.statusLegal, hbusy⟩
  rwa [honly, List.mem_singleton] at hmem

/-! ### Buffer accesses -/

theorem State.readBuf_of_busy {s : State} (h : s.busy = true) (space : Space) (addr : Nat) :
    s.readBuf space addr = s.replyDrawn (.buf space addr (Config.busyReadByte s.draws)) := if_pos h

theorem State.writeBuf_of_busy {s : State} (h : s.busy = true) (space : Space) (addr : Nat) (v : Byte) :
    s.writeBuf space addr v = s := if_pos h

theorem State.writeBuf_of_idle {s : State} (h : s.busy = false) (space : Space) (addr : Nat) (v : Byte) :
    s.writeBuf space addr v = s.setBuf space ((s.buf space).write addr v) := by
  simp [State.writeBuf, h]

/-- A write to one buffer is read back there and nowhere else, 46_host_access.md R304. -/
theorem State.read_setBuf_write (s : State) (space sp : Space) (addr a : Nat) (v : Byte) :
    ((s.setBuf space ((s.buf space).write addr v)).buf sp).read a =
      if sp = space ∧ a = addr then some v else (s.buf sp).read a := by
  rw [State.setBuf_buf]
  by_cases hsp : sp = space
  · subst hsp
    simp [Memory.read_write, eq_comm]
  · simp [hsp]

/-! ### The accesses as outcomes -/

theorem hostAccess_readBuf_of_lt {s : State} {space : Space} {addr : Nat} (h : addr < s.cfg.cap space) :
    hostAccess (.readBuf space addr) s = .next (s.readBuf space addr) := if_pos h

theorem hostAccess_writeBuf_of_lt {s : State} {space : Space} {addr : Nat} (h : addr < s.cfg.cap space) (v : Byte) :
    hostAccess (.writeBuf space addr v) s = .next (s.writeBuf space addr v) := if_pos h

theorem hostAccess_readReg_eq_reply {s : State} {r : Reg} (h : s.busy = false ∨ r ≠ .dstLen) :
    hostAccess (.readReg r) s = .next { s with replies := .reg r (s.reg r) :: s.replies } :=
  congrArg Host.Outcome.next (State.readReg_eq_reply h)

/-! ### The statements -/

/-- Settles O60: `takeTurn` runs the access at the head of the list of turns. -/
theorem stepPerformsTheHostAccess : Obligations.StepPerformsTheHostAccess := step_of_host

/-- Settles O12: the step is the access (`step_of_host`), and the access is `State.issue`. -/
theorem cmdWriteIssues : Obligations.CmdWriteIssues := by
  intro s v rest hidle hturns
  refine ⟨?_, by decide, by decide, by decide⟩
  have hidle' : State.busy { s with turns := rest } = false := hidle
  rw [step_of_host s _ rest hturns, hostAccess, State.writeReg_cmd_of_idle hidle', State.issue, statusIssued_eq]

/-- Settles O13: a read is `readReg_eq_reply`, and a write of SRC_LEN or KEY_LEN is the one of an idle engine. -/
theorem registerAccesses : Obligations.RegisterAccesses := by
  intro s
  refine ⟨fun hidle => ?_, hostAccess_readReg_eq_reply (.inr (by decide)), fun hidle v => ?_, fun v => ?_⟩
  · have hread (r : Reg) := hostAccess_readReg_eq_reply (s := s) (r := r) (.inl hidle)
    exact ⟨hread .cmd, hread .srcLen, hread .keyLen, hread .dstLen⟩
  · exact ⟨congrArg _ (State.writeReg_srcLen_of_idle hidle v), congrArg _ (State.writeReg_keyLen_of_idle hidle v)⟩
  · exact ⟨congrArg _ (s.writeReg_status v), congrArg _ (s.writeReg_dstLen v)⟩

/-- Settles O14: the write replaces one buffer, in which only the byte at `addr` reads otherwise than before. -/
theorem bufferWriteSetsOneByte : Obligations.BufferWriteSetsOneByte := by
  intro s space addr v hidle haddr
  refine ⟨s.setBuf space ((s.buf space).write addr v), ?_, fun sp a => s.read_setBuf_write space sp addr a v, ?_⟩
  · rw [hostAccess_writeBuf_of_lt haddr, State.writeBuf_of_idle hidle]
  · simp

/-- Settles O16: writes are dropped by the busy engine, and a read answers the register or draws a free value. -/
theorem busyHostActions : Obligations.BusyHostActions := by
  intro s hbusy
  refine ⟨fun hinv => hinv.status_of_busy hbusy, hostAccess_readReg_eq_reply (.inr (by decide)), fun r v => ?_,
    fun space addr v haddr => ?_, hostAccess_readReg_eq_reply (.inr (by decide)),
    hostAccess_readReg_eq_reply (.inr (by decide)), hostAccess_readReg_eq_reply (.inr (by decide)), ?_,
    fun space addr haddr => ?_⟩
  · exact congrArg _ (State.writeReg_of_busy hbusy r v)
  · rw [hostAccess_writeBuf_of_lt haddr, State.writeBuf_of_busy hbusy]
  · exact congrArg _ (State.readReg_dstLen_of_busy hbusy)
  · rw [hostAccess_readBuf_of_lt haddr, State.readBuf_of_busy hbusy, State.replyDrawn]

end Sys2Proof.Machine
end

section
/-! SUPPORT. What a command evaluates to, cause by cause in the order of spec/60_exceptions.md R227: the range checks, then
the source, then the key, then the result. -/

namespace Sys2Proof.Machine

/-! ### The digest of the HMAC-SHA1 processor -/

theorem Work.hmacKey_k0 (wk : Work) (k : List Byte) : (wk.hmacKey k).k0.toList = normKey k := by
  unfold Work.hmacKey
  by_cases hk : 64 < k.length
  · simp only [if_pos hk, normKey_of_long hk, Work.sha1Run_digest, vecOf_toList, sha1_length, Nat.reduceLeDiff,
      Nat.reduceSub]
  · rw [if_neg hk, normKey_of_short (by omega), vecOf_toList 0 64 k (by omega)]

theorem Work.hmacInner_k0 (wk : Work) (m : List Byte) : (wk.hmacInner m).k0 = wk.k0 := Work.sha1Run_k0 _ _

theorem Work.hmacInner_inner (wk : Work) (m : List Byte) :
    (wk.hmacInner m).inner.toList = sha1 (ipad wk.k0.toList ++ m) := by
  simp [Work.hmacInner, Work.sha1Run_digest, vecOf_toList]

/-- The processor leaves the keyed digest of 43_hmac_sha1.md R179 in H[0..4], whatever the working state held before. -/
theorem Work.hmacRun_digest (wk : Work) (m k : List Byte) : sha1Digest (wk.hmacRun m k).h = hmacSha1 m k := by
  rw [Work.hmacRun, Work.hmacOuter, Work.sha1Run_digest, Work.hmacInner_inner, Work.hmacInner_k0, Work.hmacKey_k0]
  rfl

/-! ### The bytes of the operands -/

/-- What the read of a source operand that fits answers: FROMHEX parses its text, every other command fetches. -/
def sourceBytes (i : Instr) (s : State) : Except Halt (List Byte) :=
  match i with
  | .fromhex => (s.src.readUnits .src 0 s.srcLen.toNat).bind fun t => raising (fromHex t)
  | _ => s.fetch .src s.srcLen.toNat (srcType i)

/-- What the read of a key operand that fits answers; a command without a key reads nothing. -/
def keyBytes (i : Instr) (s : State) : Except Halt (List Byte) :=
  match keyType i with
  | some tk => s.fetch .key s.keyLen.toNat tk
  | none => .ok []

theorem sourceBytes_eq_ok_iff (i : Instr) (s : State) (m : List Byte) : sourceBytes i s = .ok m ↔ sourceIs i s m := by
  cases i with
  | utf8enc => exact s.fetch_eq_ok .src _ .text m
  | md5 tm | sha1 tm | hmacsha1 tm => exact s.fetch_eq_ok .src _ tm m
  | tohex | tobase64 => exact s.fetch_eq_ok .src _ .bytes m
  | fromhex =>
    simp only [sourceIs, State.holdsText_iff, State.buf_src]
    constructor
    · intro h
      obtain ⟨t, ht, hm⟩ := exceptBind_eq_ok h
      exact ⟨t, ht, raising_eq_ok hm⟩
    · rintro ⟨t, ht, hm⟩
      simp [sourceBytes, ht, hm, Except.bind, raising]

/-- A bad element of the source raises ENCODING when the source is read, 60_exceptions.md R221. -/
theorem sourceBytes_of_sourceBad {i : Instr} {s : State} (h : sourceBad i s) :
    sourceBytes i s = .error (.raise .encoding) := by
  obtain ⟨htype, t, ht, hbad⟩ := h
  cases i with
  | utf8enc | md5 | sha1 | hmacsha1 | tohex | tobase64 =>
    exact (State.fetch_raise _ _ _ _ _).mpr ⟨htype, rfl, t, ht, by simpa using hbad⟩
  | fromhex =>
    rw [State.holdsText_iff, State.buf_src] at ht
    rw [if_pos rfl] at hbad
    simp [sourceBytes, ht, hbad, Except.bind, raising]

/-- A bad element of the key raises ENCODING when the key is read, 60_exceptions.md R221. -/
theorem keyBytes_of_keyBad {i : Instr} {s : State} (h : keyBad i s) : keyBytes i s = .error (.raise .encoding) := by
  obtain ⟨htype, t, ht, hbad⟩ := h
  rw [keyBytes, htype]
  exact (State.fetch_raise _ _ _ _ _).mpr ⟨rfl, rfl, t, ht, hbad⟩

/-- A sound key gives its result; a command without a key has the same result for every `k`. -/
theorem keyBytes_map_resultOf {i : Instr} {s : State} {k : List Byte} (h : keyIs i s k) (m : List Byte) :
    (keyBytes i s).map (resultOf i m) = .ok (resultOf i m k) := by
  cases i with
  | utf8enc | md5 | sha1 | tohex | fromhex | tobase64 => rfl
  | hmacsha1 tm tk =>
    have hkey : keyBytes (.hmacsha1 tm tk) s = .ok k := (State.fetch_eq_ok _ _ _ _ _).mpr (h tk rfl)
    rw [hkey]
    rfl

/-! ### The evaluation, cause by cause -/

theorem State.source_of_fits {s : State} {ty : OperandType} (h : bytesOf ty s.srcLen.toNat ≤ s.cfg.srcCap) :
    s.source ty = s.fetch .src s.srcLen.toNat ty := s.inRange_pos .src ty s.srcLen _ h

theorem State.source_of_not_fits {s : State} {ty : OperandType} (h : ¬bytesOf ty s.srcLen.toNat ≤ s.cfg.srcCap) :
    s.source ty = .error (.raise .operandRange) := s.inRange_neg .src ty s.srcLen _ h

/-- A command without a key maps its source to its result. -/
theorem State.source_map_of_fits {s : State} {ty : OperandType} (h : bytesOf ty s.srcLen.toNat ≤ s.cfg.srcCap)
    (f : List Byte → Result) :
    (s.source ty).map f = (s.fetch .src s.srcLen.toNat ty).bind fun m => .ok (f m) := by
  rw [State.source_of_fits h]
  cases s.fetch .src s.srcLen.toNat ty <;> rfl

theorem evaluate_of_not_srcFits {i : Instr} {s : State} (h : ¬srcFits i s) :
    evaluate i s = .error (.raise .operandRange) := by
  cases i with
  | utf8enc | md5 | sha1 | tohex | tobase64 => exact congrArg (Except.map _) (State.source_of_not_fits h)
  | hmacsha1 | fromhex => exact State.inRange_neg _ _ _ _ _ h

theorem evaluate_of_not_keyFits {i : Instr} {s : State} (h : ¬keyFits i s) :
    evaluate i s = .error (.raise .operandRange) := by
  by_cases hsrc : srcFits i s
  · simp only [keyFits, not_forall] at h
    obtain ⟨tk, htk, hkey⟩ := h
    cases i with
    | utf8enc | md5 | sha1 | tohex | fromhex | tobase64 => cases htk
    | hmacsha1 tm =>
      cases htk
      exact (s.inRange_pos .src tm _ _ hsrc).trans (State.inRange_neg _ _ _ _ _ hkey)
  · exact evaluate_of_not_srcFits hsrc

/-- With both operands in range a command reads its source, then its key, then computes its result, 46_host_access.md
R310. -/
theorem evaluate_of_fits {i : Instr} {s : State} (hsrc : srcFits i s) (hkey : keyFits i s) :
    evaluate i s = (sourceBytes i s).bind fun m => (keyBytes i s).map (resultOf i m) := by
  cases i with
  | utf8enc | tohex | tobase64 => exact State.source_map_of_fits hsrc _
  | md5 tm => exact (State.source_map_of_fits hsrc _).trans (by simp only [Work.md5Run_digest]; rfl)
  | sha1 tm => exact (State.source_map_of_fits hsrc _).trans (by simp only [Work.sha1Run_digest]; rfl)
  | hmacsha1 tm tk =>
    rw [evaluate, resultHmacsha1, s.inRange_pos .src tm _ _ hsrc, s.inRange_pos .key tk _ _ (hkey tk rfl)]
    simp only [Work.hmacRun_digest]
    rfl
  | fromhex =>
    rw [evaluate, resultFromhex, s.inRange_pos .src .text _ _ hsrc, sourceBytes]
    cases s.src.readUnits .src 0 s.srcLen.toNat with
    | error e => rfl
    | ok t =>
      show raising ((fromHex t).map Result.bytes) = (raising (fromHex t)).bind fun b => .ok (.bytes b)
      cases fromHex t <;> rfl

theorem evaluate_of_sourceBad {i : Instr} {s : State} (hsrc : srcFits i s) (hkey : keyFits i s) (h : sourceBad i s) :
    evaluate i s = .error (.raise .encoding) := by
  rw [evaluate_of_fits hsrc hkey, sourceBytes_of_sourceBad h]
  rfl

theorem evaluate_of_keyBad {i : Instr} {s : State} {m : List Byte} (hsrc : srcFits i s) (hkey : keyFits i s)
    (hm : sourceIs i s m) (h : keyBad i s) : evaluate i s = .error (.raise .encoding) := by
  rw [evaluate_of_fits hsrc hkey, (sourceBytes_eq_ok_iff i s m).mpr hm, keyBytes_of_keyBad h]
  rfl

theorem evaluate_eq_ok {i : Instr} {s : State} {m k : List Byte} (hsrc : srcFits i s) (hkey : keyFits i s)
    (hm : sourceIs i s m) (hk : keyIs i s k) : evaluate i s = .ok (resultOf i m k) := by
  rw [evaluate_of_fits hsrc hkey, (sourceBytes_eq_ok_iff i s m).mpr hm]
  exact keyBytes_map_resultOf hk m

end Sys2Proof.Machine
end

section
/-! SUPPORT. The completions that end in an error (spec/60_exceptions.md R223, R226, R227): each is the error entry, and so a
`FailureOf`. -/

namespace Sys2Proof.Machine

theorem State.completePending_of_decode {s : State} {i : Instr} (h : decode s.cmd = .ok i) :
    s.completePending = s.complete (evaluate i s) := by
  rw [State.completePending_eq, h]

theorem State.completePending_of_illegal {s : State} (h : ∀ i, decode s.cmd ≠ .ok i) :
    s.completePending = .next (s.errorEntry .illegalCmd) := by
  rw [State.completePending]
  cases hd : decode s.cmd with
  | ok i => exact absurd hd (h i)
  | error => rfl

theorem State.complete_of_dstCap_lt {s : State} {r : Result} (h : s.cfg.dstCap < r.image.length) :
    s.complete (.ok r) = .next (s.errorEntry .operandRange) := by
  rw [State.complete, if_neg (by rw [← Result.image_length]; omega)]

theorem State.completePending_fails_of_illegal {s : State} (h : ∀ i, decode s.cmd ≠ .ok i) :
    ∃ t, s.completePending = .next t ∧ FailureOf s t 3 :=
  ⟨_, State.completePending_of_illegal h, s.errorEntry_failure .illegalCmd⟩

theorem State.completePending_fails_of_raise {s : State} {i : Instr} {e : CmdError} (hd : decode s.cmd = .ok i)
    (h : evaluate i s = .error (.raise e)) : ∃ t, s.completePending = .next t ∧ FailureOf s t e.code.toNat :=
  ⟨_, by rw [State.completePending_of_decode hd, h, State.complete], s.errorEntry_failure e⟩

/-- Settles O7: no other word decodes (`legalWordsAreTheTwelve`), and a word that does not decode enters ILLEGAL_CMD in both
forms of the engine's move. -/
theorem illegalWordEndsWithIllegalCmd : Obligations.IllegalWordEndsWithIllegalCmd := by
  intro s hbusy hcmd
  have hillegal : ∀ i, decode s.cmd ≠ .ok i := fun i hi => hcmd ((legalWordsAreTheTwelve s.cmd).mp ⟨i, hi⟩)
  refine ⟨fun hturns => ?_, fun rest hturns => ?_⟩
  · rw [step_of_nil s hturns, State.engineTurn_busy s hbusy]
    exact State.completePending_fails_of_illegal hillegal
  · rw [step_of_engine s rest hturns, State.engineTurn_busy { s with turns := rest } hbusy]
    exact State.completePending_fails_of_illegal hillegal

/-- Settles O29: a legal command answers an operand that does not fit before it reads any; with both in range it reads the
source, then the key (`evaluate_of_fits`), and only a result it has computed is measured against DST. -/
theorem errorsInPriorityOrder : Obligations.ErrorsInPriorityOrder := by
  intro s
  refine ⟨State.completePending_fails_of_illegal, fun i hd => ⟨?_, ?_, ?_, ?_⟩⟩
  · rintro (hsrc | hkey)
    · exact State.completePending_fails_of_raise hd (evaluate_of_not_srcFits hsrc)
    · exact State.completePending_fails_of_raise hd (evaluate_of_not_keyFits hkey)
  · exact fun hsrc hkey hbad => State.completePending_fails_of_raise hd (evaluate_of_sourceBad hsrc hkey hbad)
  · exact fun m hsrc hkey hm hbad => State.completePending_fails_of_raise hd (evaluate_of_keyBad hsrc hkey hm hbad)
  · intro m k hsrc hkey hm hk hlong
    refine ⟨_, ?_, s.errorEntry_failure .operandRange⟩
    rw [State.completePending_of_decode hd, evaluate_eq_ok hsrc hkey hm hk, State.complete_of_dstCap_lt hlong]

end Sys2Proof.Machine
end

section
/-! SUPPORT. The words of the instructions against the opcode table (spec/30_encoding.md R75 to R81). -/

namespace Sys2Proof

/-- Settles O1: `decode_encode` and `encode_of_decode` are the two directions. -/
theorem decodeEncodeAgree : Obligations.DecodeEncodeAgree := decode_eq_ok_iff

/-- The word of an instruction selects one row of the table, the one with its mnemonic, R81. -/
theorem rows_selected_by_encode (i : Instr) :
    (opcodeTable.filter fun row => encode i &&& row.mask == row.pattern).map (·.mnemonic) = [i.mnemonic] := by
  have hall : ∀ i ∈ legalInstrs,
      (opcodeTable.filter fun row => encode i &&& row.mask == row.pattern).map (·.mnemonic) = [i.mnemonic] := by decide
  exact hall i (mem_legalInstrs i)

/-- Settles O3: a legal word is the word of its instruction; were no row to select it, its one row would be missing from the
filtered table. -/
theorem tableRowSelectsTheCommand : Obligations.TableRowSelectsTheCommand := by
  have hrow (w : Word) (i : Instr) (h : decode w = .ok i) :
      (opcodeTable.filter fun row => w &&& row.mask == row.pattern).map (·.mnemonic) = [i.mnemonic] := by
    rw [← encode_of_decode h]
    exact rows_selected_by_encode i
  refine ⟨hrow, fun w hnone i h => ?_⟩
  have hempty : (opcodeTable.filter fun row => w &&& row.mask == row.pattern) = [] :=
    List.filter_eq_nil_iff.mpr fun row hmem => by simpa using hnone row hmem
  simpa [hempty] using hrow w i h

/-- Settles O4: eleven closed words, decoded. -/
theorem writtenOutWordsDecode : Obligations.WrittenOutWordsDecode := by
  unfold Obligations.WrittenOutWordsDecode
  decide

end Sys2Proof
end

section
/-! SUPPORT. Whose turn a step is: the engine with a command pending or idle, and the reset event (spec/46_host_access.md R307,
spec/60_exceptions.md R237, spec/70_reset_and_hazards.md R250). -/

namespace Sys2Proof.Machine

/-- A legal word pending when the engine moves is run, 46_host_access.md R307 and R310. -/
theorem State.engineTurn_of_decode {s : State} {i : Instr} (hbusy : s.busy = true) (hd : decode s.cmd = .ok i) :
    s.engineTurn = exec i s := by
  rw [State.engineTurn_busy s hbusy, State.completePending, hd]

/-- Settles O5: both forms of the engine's move are `engineTurn`, which runs the decoded command. -/
theorem stepRunsTheDecodedCommand : Obligations.StepRunsTheDecodedCommand := by
  refine fun s i hbusy hd => ⟨fun hturns => ?_, fun rest hturns => ?_⟩
  · rw [step_of_nil s hturns, State.engineTurn_of_decode hbusy hd]
  · exact (step_of_engine s rest hturns).trans (State.engineTurn_of_decode (s := { s with turns := rest }) hbusy hd)

/-- Settles O6: the placed word is pending with an engine turn first, and it decodes to the instruction it encodes. -/
theorem placedWordIsRunNext : Obligations.PlacedWordIsRunNext := by
  intro s i
  have hplace : s.withFetchWord 32 (encode i).toNat = s.placeCommand (encode i) := by
    rw [State.withFetchWord, Nat.mod_eq_of_lt (encode i).isLt, BitVec.ofNat_toNat, BitVec.setWidth_eq]
  rw [hplace, step_of_engine _ s.turns rfl]
  exact (State.engineTurn_of_decode (s.issue_busy (encode i)) (decode_encode i)).trans
    (by rw [State.issue, statusIssued_eq])

/-- Settles O8: both forms of the engine's move are `engineTurn`, which an idle engine answers with the same state. -/
theorem idleEngineHoldsItsState : Obligations.IdleEngineHoldsItsState := by
  refine fun s hidle => ⟨fun hturns => ?_, fun rest hturns => ?_⟩
  · rw [step_of_nil s hturns, State.engineTurn_idle s hidle]
  · exact (step_of_engine s rest hturns).trans (State.engineTurn_idle { s with turns := rest } hidle)

/-- Right after reset no buffer holds a byte, 10_state.md R40. -/
theorem State.read_resetWith (cfg : Config) (space : Space) (addr : Nat) :
    ((State.resetWith cfg).buf space).read addr = none := by
  cases space <;> rfl

theorem State.read_resetEvent (s : State) (space : Space) (addr : Nat) : (s.resetEvent.buf space).read addr = none := by
  cases space <;> rfl

/-- Settles O18: the registers and the sequencer by the definition of `State.resetWith`, the buffers by
`State.read_resetWith`. -/
theorem resetState : Obligations.ResetState :=
  ⟨rfl, rfl, rfl, rfl, rfl, State.read_resetWith _, rfl, rfl⟩

/-- Settles O19: the step is `State.resetEvent`, whatever state it starts from. -/
theorem resetEventLeavesResetState : Obligations.ResetEventLeavesResetState := fun s rest hturns =>
  ⟨_, step_of_reset s rest hturns, rfl, rfl, rfl, rfl, rfl, State.read_resetEvent _, rfl, rfl,
    show statusBusy 0 = false by decide, rfl, rfl, rfl⟩

/-- With legal capacities the invariant holds right after reset, 10_state.md R40. -/
theorem State.inv_resetWith {cfg : Config} (h : cfg.legal) : (State.resetWith cfg).Inv where
  capsLegal := h
  statusLegal := show 0 ∈ legalStatuses by decide
  wf := by intro space; cases space <;> exact List.Pairwise.nil
  inside := by intro space; cases space <;> exact fun p hp => absurd hp List.not_mem_nil
  resultFits := Nat.zero_le _
  resultWritten := State.written_zero _ _
  imageFits := fun _ => (bytesOf_zero _).trans_le (Nat.zero_le _)
  imageWritten := fun _ a ha => absurd (ha.trans_eq (bytesOf_zero _)) (Nat.not_lt_zero a)
  failedEmpty := fun _ => rfl
  freshIdle := fun _ => ⟨rfl, rfl⟩
  sequencerIdle := ⟨rfl, rfl⟩

/-- Settles O20: the capacities of `Config.atReset` are legal. -/
theorem invariantAtReset : Obligations.InvariantAtReset :=
  State.inv_resetWith (show Config.atReset.legal by decide)

end Sys2Proof.Machine
end

section
/-! SUPPORT. Buffer accesses outside the buffer and reads while idle (spec/46_host_access.md R300, R305), and what a buffer and
the operand fetch read (spec/20_memory.md R53, R64, spec/40_utf8_encoder.md R106). -/

namespace Sys2Proof.Machine

theorem State.atAddress_of_le {s : State} {space : Space} {addr : Nat} (h : s.cfg.cap space ≤ addr) (t : State) :
    s.atAddress space addr t = .fault (.addressOutsideBuffer space addr) := if_neg h.not_gt

/-- Settles O11: both accesses check their address first, whatever STATUS holds. -/
theorem outsideAddressFaults : Obligations.OutsideAddressFaults := fun _ _ _ _ haddr =>
  ⟨State.atAddress_of_le haddr _, State.atAddress_of_le haddr _⟩

theorem State.readBuf_of_idle {s : State} (h : s.busy = false) (space : Space) (addr : Nat) :
    s.readBuf space addr = s.reply (.buf space addr (s.byteAt space addr)) := by
  simp [State.readBuf, h]

/-- Settles O15: an idle read answers `byteAt`, which is the byte where there is one and the free value where there is
none. -/
theorem bufferReadReturnsTheByte : Obligations.BufferReadReturnsTheByte := by
  intro s space addr hidle haddr
  have hread : hostAccess (.readBuf space addr) s =
      .next { s with replies := .buf space addr (s.byteAt space addr) :: s.replies } := by
    rw [hostAccess_readBuf_of_lt haddr, State.readBuf_of_idle hidle, State.reply]
  refine ⟨fun v hv => ?_, fun hnone => ?_⟩
  · rw [hread, State.byteAt, hv, Option.getD_some]
  · rw [hread, State.byteAt, hnone, Option.getD_none]

/-- Settles O37: read after write and canonical form, for a write of several bytes. -/
theorem bufferWritesReadBack : Obligations.BufferWritesReadBack := fun m addr b a =>
  ⟨m.read_writeBytes addr b a, fun hm => m.wf_writeBytes hm addr b⟩

/-- The two bytes of a code unit are its low and its high eight bits, 20_memory.md R53. -/
theorem unitBytes_eq_extractLsb' (u : CodeUnit) : unitBytes u = [u.extractLsb' 0 8, u.extractLsb' 8 8] := by
  have hlow : BitVec.ofNat 8 (u.toNat % 256) = u.extractLsb' 0 8 := BitVec.eq_of_toNat_eq (by simp)
  have hhigh : BitVec.ofNat 8 (u.toNat / 256) = u.extractLsb' 8 8 :=
    BitVec.eq_of_toNat_eq (by simp [Nat.shiftRight_eq_div_pow])
  rw [unitBytes, hlow, hhigh]

theorem textImage_getElem?_low (t : List CodeUnit) (k : Nat) :
    (textImage t)[2 * k]? = t[k]?.map (·.extractLsb' 0 8) := by
  induction t generalizing k with
  | nil => simp
  | cons u t ih =>
    rw [textImage_cons, unitBytes_eq_extractLsb']
    cases k with
    | zero => rfl
    | succ k => exact ih k

theorem textImage_getElem?_high (t : List CodeUnit) (k : Nat) :
    (textImage t)[2 * k + 1]? = t[k]?.map (·.extractLsb' 8 8) := by
  induction t generalizing k with
  | nil => simp
  | cons u t ih =>
    rw [textImage_cons, unitBytes_eq_extractLsb']
    cases k with
    | zero => rfl
    | succ k => exact ih k

/-- A buffer holds a text exactly when unit `k` stands at addresses `2k` and `2k + 1`, low byte first, 20_memory.md R53. -/
theorem State.holds_textImage_iff (s : State) (space : Space) (t : List CodeUnit) :
    s.holds space (textImage t) ↔ ∀ k (h : k < t.length),
      (s.buf space).read (2 * k) = some (t[k].extractLsb' 0 8) ∧
      (s.buf space).read (2 * k + 1) = some (t[k].extractLsb' 8 8) := by
  rw [State.holds, textImage_length]
  constructor
  · intro h k hk
    rw [h (2 * k) (by omega), h (2 * k + 1) (by omega), textImage_getElem?_low, textImage_getElem?_high,
      List.getElem?_eq_getElem hk]
    exact ⟨rfl, rfl⟩
  · intro h a ha
    obtain ⟨k, rfl | rfl⟩ := a.even_or_odd'
    · have hk : k < t.length := by omega
      rw [(h k hk).1, textImage_getElem?_low, List.getElem?_eq_getElem hk, Option.map_some]
    · have hk : k < t.length := by omega
      rw [(h k hk).2, textImage_getElem?_high, List.getElem?_eq_getElem hk, Option.map_some]

/-- Settles O38: `State.fetch_eq_ok` with the text's image read unit by unit. -/
theorem fetchReadsTheOperand : Obligations.FetchReadsTheOperand := by
  intro s space n m
  constructor
  · rw [State.fetch_eq_ok]
    exact and_congr_right fun hlen => by rw [State.holds, hlen]
  · simp only [State.fetch_eq_ok, State.operandIs, State.holdsText, State.holds_textImage_iff]
    exact exists_congr fun t => by rw [and_assoc, and_comm (a := utf8Encode t = .ok m)]

end Sys2Proof.Machine
end

section
/-! SUPPORT. Rotation and the byte orders of a word (spec/00_scope.md R14, spec/20_memory.md R54, R55), and the digests of the
source document (spec/95_test_vectors.md V1 to V5). -/

namespace Sys2Proof.Machine

/-- Settles O47: a bit that stays below bit 32 comes from the left shift, one that wraps around from the right shift. -/
theorem rotationMovesBits : Obligations.RotationMovesBits := by
  intro x n j hlo hhi hj
  rw [rotl, BitVec.getLsbD_or, BitVec.getLsbD_shiftLeft, BitVec.getLsbD_ushiftRight]
  by_cases hwrap : j + n < 32
  · have hout : x.getLsbD (32 - n + (j + n)) = false := BitVec.getLsbD_of_ge x _ (by omega)
    simp [Nat.mod_eq_of_lt hwrap, hwrap, hout]
  · have hmod : (j + n) % 32 = j + n - 32 := by omega
    have hin : 32 - n + (j + n - 32) = j := by omega
    have hlow : j + n - 32 < n := by omega
    simp [hmod, hin, hlow]

/-- The big-endian bytes are the little-endian ones reversed, 20_memory.md R54 and R55. -/
theorem toBE32_eq_reverse (w : Word) : toBE32 w = (toLE32 w).reverse := rfl

/-- Reading four bytes big-endian is reading them reversed little-endian. -/
theorem be32_eq_le32_reverse (a b c d : Byte) : be32 [a, b, c, d] = le32 [d, c, b, a] := by
  simp only [be32, le32, List.getD_cons_zero, List.getD_cons_succ]
  congr 1
  omega

theorem le32_toLE32 (w : Word) : le32 (toLE32 w) = w := by
  have := w.isLt
  apply BitVec.eq_of_toNat_eq
  simp only [le32, toLE32, List.getD_cons_zero, List.getD_cons_succ, BitVec.toNat_ofNat, BitVec.extractLsb'_toNat,
    Nat.shiftRight_eq_div_pow]
  omega

/-- Settles O48: one round trip computed, the other carried over by the reversal. -/
theorem wordBytesRoundTrip : Obligations.WordBytesRoundTrip := fun w =>
  ⟨le32_toLE32 w, (be32_eq_le32_reverse _ _ _ _).trans (le32_toLE32 w), toBE32_eq_reverse w⟩

/-- Settles O49: five closed digests, computed. -/
theorem sourceVectors : Obligations.SourceVectors := by
  refine ⟨?_, ?_, ?_, ?_, ?_⟩ <;> decide +kernel

/-- Settles O52: the stages, whatever the working state held before. -/
theorem hmacStagesComputeTheDigest : Obligations.HmacStagesComputeTheDigest := Work.hmacRun_digest

end Sys2Proof.Machine
end

section
/-! SUPPORT. Commands that succeed (spec/46_host_access.md R307): with the operands in range and sound and room for the result,
every command stores what R310 computes. -/

namespace Sys2Proof.Machine

@[simp] theorem md5_length (m : List Byte) : (md5 m).length = 16 := md5Digest_length _

@[simp] theorem hmacSha1_length (m k : List Byte) : (hmacSha1 m k).length = 20 := sha1_length _

theorem State.complete_of_le_dstCap {s : State} {r : Result} (h : r.image.length ≤ s.cfg.dstCap) :
    s.complete (.ok r) = .next (s.succeed r) := by
  rw [State.complete, if_pos (by rwa [← Result.image_length])]

/-- Both operands of a command are in range and stand for the bytes `m` and `k`; a command without a key takes any `k`. -/
structure OperandsAre (i : Instr) (s : State) (m k : List Byte) : Prop where
  sourceFits : srcFits i s
  keyFits : keyFits i s
  source : sourceIs i s m
  key : keyIs i s k

theorem OperandsAre.of_keyType_none {i : Instr} {s : State} {m : List Byte} (hnone : keyType i = none) (hsrc : srcFits i s)
    (hm : sourceIs i s m) : OperandsAre i s m [] where
  sourceFits := hsrc
  keyFits := fun _ htk => nomatch hnone.symm.trans htk
  source := hm
  key := fun _ htk => nomatch hnone.symm.trans htk

theorem OperandsAre.evaluate {i : Instr} {s : State} {m k : List Byte} (h : OperandsAre i s m k) :
    evaluate i s = .ok (resultOf i m k) := evaluate_eq_ok h.sourceFits h.keyFits h.source h.key

/-- A command with these operands stores its result where that fits, 46_host_access.md R307. -/
theorem OperandsAre.exec_succeeds {i : Instr} {s : State} {m k : List Byte} (h : OperandsAre i s m k)
    (hfit : (resultOf i m k).image.length ≤ s.cfg.dstCap) :
    ∃ u, exec i s = .next u ∧ SuccessOf s u (resultOf i m k).image (resultOf i m k).count := by
  refine ⟨_, ?_, s.succeed_success (resultOf i m k)⟩
  rw [exec_eq_complete, h.evaluate, State.complete_of_le_dstCap hfit]

/-- `exec_succeeds` for a result of `n` bytes. -/
theorem OperandsAre.exec_stores_bytes {i : Instr} {s : State} {m k d : List Byte} {n : Nat} (h : OperandsAre i s m k)
    (hresult : resultOf i m k = .bytes d) (hlen : d.length = n) (hfit : n ≤ s.cfg.dstCap) :
    ∃ u, exec i s = .next u ∧ SuccessOf s u d n := by
  subst hlen
  have hstores := h.exec_succeeds
  rw [hresult] at hstores
  exact hstores hfit

/-- `exec_succeeds` for a text of `n` code units, two bytes each. -/
theorem OperandsAre.exec_stores_text {i : Instr} {s : State} {m k : List Byte} {t : List CodeUnit} {n : Nat}
    (h : OperandsAre i s m k) (hresult : resultOf i m k = .text t) (hlen : t.length = n) (hfit : 2 * n ≤ s.cfg.dstCap) :
    ∃ u, exec i s = .next u ∧ SuccessOf s u (textImage t) n := by
  subst hlen
  have hstores := h.exec_succeeds
  rw [hresult] at hstores
  exact hstores ((textImage_length t).trans_le hfit)

/-- Settles O22: the result is the fetched source itself. -/
theorem utf8encStoresTheEncoding : Obligations.Utf8encStoresTheEncoding := fun _ t _ hsrc ht hb hfit =>
  (OperandsAre.of_keyType_none (i := .utf8enc) rfl hsrc ⟨t, ht, hb⟩).exec_stores_bytes rfl rfl hfit

/-- Settles O23: the result is the digest of the fetched source, of 16 bytes. -/
theorem md5StoresTheDigest : Obligations.Md5StoresTheDigest :=
  ⟨fun _ m hsrc hm hfit =>
    (OperandsAre.of_keyType_none (i := .md5 .bytes) rfl hsrc hm).exec_stores_bytes rfl (md5_length m) hfit,
  fun _ t m hsrc ht hm hfit =>
    (OperandsAre.of_keyType_none (i := .md5 .text) rfl hsrc ⟨t, ht, hm⟩).exec_stores_bytes rfl (md5_length m) hfit⟩

/-- Settles O24: the result is the digest of the fetched source, of 20 bytes. -/
theorem sha1StoresTheDigest : Obligations.Sha1StoresTheDigest :=
  ⟨fun _ m hsrc hm hfit =>
    (OperandsAre.of_keyType_none (i := .sha1 .bytes) rfl hsrc hm).exec_stores_bytes rfl (sha1_length m) hfit,
  fun _ t m hsrc ht hm hfit =>
    (OperandsAre.of_keyType_none (i := .sha1 .text) rfl hsrc ⟨t, ht, hm⟩).exec_stores_bytes rfl (sha1_length m) hfit⟩

/-- Settles O25: the result is the keyed digest of the fetched source under the fetched key, of 20 bytes. -/
theorem hmacStoresTheDigest : Obligations.HmacStoresTheDigest := by
  intro s tm tk m k hsrc hkey hm hk hfit
  have hoperands : OperandsAre (.hmacsha1 tm tk) s m k :=
    ⟨hsrc, by rintro _ ⟨⟩; exact hkey, hm, by rintro _ ⟨⟩; exact hk⟩
  exact hoperands.exec_stores_bytes rfl (hmacSha1_length m k) hfit

/-- Settles O26: two code units a byte (`toHexDigits`). -/
theorem tohexStoresTheText : Obligations.TohexStoresTheText := by
  intro s b hsrc hb hfit
  have ⟨hlen, _⟩ := hb
  obtain ⟨hcount, -⟩ := toHexDigits b
  exact (OperandsAre.of_keyType_none (i := .tohex) rfl hsrc hb).exec_stores_text rfl (hlen ▸ hcount) (by omega)

/-- Settles O27: a parsed text has two code units for each of its bytes (`length_of_fromHex`). -/
theorem fromhexStoresTheBytes : Obligations.FromhexStoresTheBytes := by
  intro s t b hsrc ht hb hfit
  have ⟨hlen, _⟩ := ht
  have hcount := length_of_fromHex hb
  exact (OperandsAre.of_keyType_none (i := .fromhex) rfl hsrc ⟨t, ht, hb⟩).exec_stores_bytes rfl (by omega) hfit

/-- Settles O28: four code units for each group of three bytes (`length_toBase64`). -/
theorem tobase64StoresTheText : Obligations.Tobase64StoresTheText := by
  intro s b hsrc hb hfit
  have ⟨hlen, _⟩ := hb
  have hcount := length_toBase64 b
  exact (OperandsAre.of_keyType_none (i := .tobase64) rfl hsrc hb).exec_stores_text rfl (hlen ▸ hcount) (by omega)

end Sys2Proof.Machine
end

section
/-! SUPPORT. Operand bytes without a value, and the bad elements of a text: which of the two a command can meet, and where
(spec/10_state.md R40, spec/60_exceptions.md R221). -/

namespace Sys2Proof.Machine

/-! ### The reads of the operands -/

/-- A text that stops at a byte without a value stops there before any of its units is examined, log 7. -/
theorem State.readUnits_of_fetch_unwritten {s : State} {space sp : Space} {n x : Nat}
    (h : s.fetch space n .text = .error (.unwritten sp x)) :
    (s.buf space).readUnits space 0 n = .error (.unwritten sp x) := by
  rcases exceptBind_eq_error h with h | ⟨t, -, h⟩
  · exact h
  · cases hu : utf8Encode t <;> simp [hu, raising] at h

theorem sourceBytes_of_ne_fromhex {i : Instr} (h : i ≠ .fromhex) (s : State) :
    sourceBytes i s = s.fetch .src s.srcLen.toNat (srcType i) := by
  cases i with
  | utf8enc | md5 | sha1 | hmacsha1 | tohex | tobase64 => rfl
  | fromhex => exact absurd rfl h

/-- The read of a source stops only at a byte of it that holds no value, 10_state.md R40. -/
theorem sourceBytes_unwritten {i : Instr} {s : State} {sp : Space} {x : Nat}
    (h : sourceBytes i s = .error (.unwritten sp x)) :
    sp = .src ∧ x < bytesOf (srcType i) s.srcLen.toNat ∧ s.src.read x = none := by
  by_cases hi : i = .fromhex
  · subst hi
    rcases exceptBind_eq_error h with h | ⟨t, -, h⟩
    · obtain ⟨y, -, hy, hnone, heq⟩ := Memory.readUnits_error _ _ _ _ _ h
      cases heq
      exact ⟨rfl, by simpa [srcType, bytesOf] using hy, hnone⟩
    · cases hu : fromHex t <;> simp [hu, raising] at h
  · rw [sourceBytes_of_ne_fromhex hi] at h
    exact State.fetch_unwritten s .src sp _ x _ h

/-- The read of a key stops only at a byte of it that holds no value, 10_state.md R40. -/
theorem keyBytes_unwritten {i : Instr} {s : State} {sp : Space} {x : Nat} (h : keyBytes i s = .error (.unwritten sp x)) :
    sp = .key ∧ ∃ tk, keyType i = some tk ∧ x < bytesOf tk s.keyLen.toNat ∧ s.key.read x = none := by
  unfold keyBytes at h
  cases hk : keyType i with
  | none => simp [hk] at h
  | some tk =>
    rw [hk] at h
    obtain ⟨rfl, hx, hnone⟩ := State.fetch_unwritten s .key sp _ x tk h
    exact ⟨rfl, tk, rfl, hx, hnone⟩

theorem State.exists_unwritten {s : State} {space : Space} {n : Nat} (h : ¬s.written space n) :
    ∃ a, a < n ∧ (s.buf space).read a = none := by
  simpa [State.written] using h

/-- A source byte without a value stops the read of the source, 10_state.md R40. -/
theorem sourceBytes_of_not_written {i : Instr} {s : State} (h : ¬s.written .src (bytesOf (srcType i) s.srcLen.toNat)) :
    ∃ x, sourceBytes i s = .error (.unwritten .src x) := by
  obtain ⟨a, ha, hnone⟩ := State.exists_unwritten h
  obtain ⟨x, hx⟩ := s.fetch_of_unwritten .src s.srcLen.toNat a (srcType i) ha hnone
  by_cases hi : i = .fromhex
  · subst hi
    have hread : s.src.readUnits .src 0 s.srcLen.toNat = .error (.unwritten .src x) :=
      State.readUnits_of_fetch_unwritten hx
    exact ⟨x, by rw [sourceBytes, hread]; rfl⟩
  · exact ⟨x, (sourceBytes_of_ne_fromhex hi s).trans hx⟩

/-- A key byte without a value stops the read of the key, 10_state.md R40. -/
theorem keyBytes_of_not_written {i : Instr} {s : State} {tk : OperandType} (hk : keyType i = some tk)
    (h : ¬s.written .key (bytesOf tk s.keyLen.toNat)) : ∃ x, keyBytes i s = .error (.unwritten .key x) := by
  obtain ⟨a, ha, hnone⟩ := State.exists_unwritten h
  rw [keyBytes, hk]
  exact s.fetch_of_unwritten .key s.keyLen.toNat a tk ha hnone

/-! ### The evaluation -/

/-- A command that gets past its range checks has operands in range, 20_memory.md R62. -/
theorem fits_of_evaluate {i : Instr} {s : State} (h : evaluate i s ≠ .error (.raise .operandRange)) :
    srcFits i s ∧ keyFits i s :=
  ⟨not_not.mp fun hsrc => h (evaluate_of_not_srcFits hsrc), not_not.mp fun hkey => h (evaluate_of_not_keyFits hkey)⟩

/-- A command stops without completing only at a byte of an operand in range that holds no value, 10_state.md R40. -/
theorem evaluate_unwritten {i : Instr} {s : State} {sp : Space} {x : Nat}
    (h : evaluate i s = .error (.unwritten sp x)) :
    (s.buf sp).read x = none ∧ x < s.cfg.cap sp ∧ ¬operandsWritten i s := by
  obtain ⟨hsrc, hkey⟩ := fits_of_evaluate (i := i) (s := s) (by rw [h]; simp)
  rw [evaluate_of_fits hsrc hkey] at h
  rcases exceptBind_eq_error h with h | ⟨m, -, h⟩
  · obtain ⟨rfl, hx, hnone⟩ := sourceBytes_unwritten h
    exact ⟨hnone, hx.trans_le hsrc, fun hw => hw.1 x hx hnone⟩
  · obtain ⟨rfl, tk, htk, hx, hnone⟩ := keyBytes_unwritten (exceptMap_eq_error h)
    exact ⟨hnone, hx.trans_le (hkey tk htk), fun hw => hw.2 tk htk x hx hnone⟩

/-- ENCODING comes only from a text operand, 60_exceptions.md R221. -/
theorem text_of_evaluate_encoding {i : Instr} {s : State} (h : evaluate i s = .error (.raise .encoding)) :
    srcType i = .text ∨ keyType i = some .text := by
  obtain ⟨hsrc, hkey⟩ := fits_of_evaluate (i := i) (s := s) (by rw [h]; simp)
  rw [evaluate_of_fits hsrc hkey] at h
  rcases exceptBind_eq_error h with h | ⟨m, -, h⟩
  · refine .inl ?_
    by_cases hi : i = .fromhex
    · rw [hi]
      rfl
    · rw [sourceBytes_of_ne_fromhex hi] at h
      exact ((State.fetch_raise _ _ _ _ _).mp h).1
  · refine .inr ?_
    have h := exceptMap_eq_error h
    unfold keyBytes at h
    cases hk : keyType i with
    | none => simp [hk] at h
    | some tk =>
      rw [hk] at h
      rw [((State.fetch_raise _ _ _ _ _).mp h).1]

/-! ### The statements about commands -/

theorem State.complete_unwritten (s : State) (sp : Space) (x : Nat) :
    s.complete (.error (.unwritten sp x)) = .refused (.unwrittenOperandByte sp x) := rfl

/-- Settles O30: with both operands in range the source is read first, and the key where the source is sound. -/
theorem unwrittenOperandIsRefused : Obligations.UnwrittenOperandIsRefused := by
  intro s i hsrc hkey
  refine ⟨fun hnot => ?_, fun m tk hm htk hnot => ?_⟩
  · obtain ⟨x, hx⟩ := sourceBytes_of_not_written hnot
    refine ⟨x, ?_, (sourceBytes_unwritten hx).2.2⟩
    rw [exec_eq_complete, evaluate_of_fits hsrc hkey, hx]
    exact s.complete_unwritten .src x
  · obtain ⟨x, hx⟩ := keyBytes_of_not_written htk hnot
    obtain ⟨-, -, -, -, hnone⟩ := keyBytes_unwritten hx
    refine ⟨x, ?_, hnone⟩
    rw [exec_eq_complete, evaluate_of_fits hsrc hkey, (sourceBytes_eq_ok_iff i s m).mpr hm, hx]
    exact s.complete_unwritten .key x

/-- Settles O32: these five have no text operand (`text_of_evaluate_encoding`), so of the ways to complete only the result and
OPERAND_RANGE are left. -/
theorem byteCommandsNeverEncodingError : Obligations.ByteCommandsNeverEncodingError := by
  intro i s t hi h
  have hbytes : ∀ i ∈ [Instr.tohex, .tobase64, .md5 .bytes, .sha1 .bytes, .hmacsha1 .bytes .bytes],
      srcType i ≠ .text ∧ keyType i ≠ some .text := by decide
  obtain ⟨hsrc, hkey⟩ := hbytes i hi
  rw [exec_eq_complete] at h
  rcases State.complete_next s t _ h with ⟨r, -, -, rfl⟩ | ⟨r, -, -, rfl⟩ | ⟨e, he, rfl⟩
  · rw [State.succeed_status]
    decide
  · rw [State.errorEntry_status]
    decide
  · rcases evaluate_raise he with rfl | rfl
    · exact absurd (text_of_evaluate_encoding he) (not_or.mpr ⟨hsrc, hkey⟩)
    · rw [State.errorEntry_status]
      decide

end Sys2Proof.Machine
end

section
/-! SUPPORT. What a command's outcome depends on: its operands and the capacities (spec/00_scope.md R17,
spec/46_host_access.md R310), and not the internal working state, the base addresses, or what the host does meanwhile. -/

namespace Sys2Proof.Machine

/-! ### The evaluation reads the operands and the capacities -/

theorem State.fetch_congr {s s' : State} {space : Space} (h : s.buf space = s'.buf space) (n : Nat) (ty : OperandType) :
    s.fetch space n ty = s'.fetch space n ty := by
  cases ty <;> simp only [State.fetch, h]

theorem sourceBytes_congr {s s' : State} (hlen : s.srcLen = s'.srcLen) (hsrc : s.src = s'.src) (i : Instr) :
    sourceBytes i s = sourceBytes i s' := by
  by_cases hi : i = .fromhex
  · subst hi
    rw [sourceBytes, sourceBytes, hlen, hsrc]
  · rw [sourceBytes_of_ne_fromhex hi, sourceBytes_of_ne_fromhex hi, hlen]
    exact State.fetch_congr (space := .src) hsrc _ _

theorem keyBytes_congr {s s' : State} (hlen : s.keyLen = s'.keyLen) (hkey : s.key = s'.key) (i : Instr) :
    keyBytes i s = keyBytes i s' := by
  unfold keyBytes
  cases keyType i with
  | none => rfl
  | some tk =>
    rw [hlen]
    exact State.fetch_congr (space := .key) hkey _ _

/-- A command evaluates to the same in two states with the same operands and capacities, 46_host_access.md R310. -/
theorem evaluate_congr {s s' : State} (h : SameOperands s s') (i : Instr) : evaluate i s = evaluate i s' := by
  obtain ⟨hsrcLen, hkeyLen, hsrc, hkey, hsrcCap, hkeyCap, -⟩ := h
  have hsrcFits : srcFits i s ↔ srcFits i s' := by rw [srcFits, srcFits, hsrcLen, hsrcCap]
  have hkeyFits : keyFits i s ↔ keyFits i s' := by rw [keyFits, keyFits, hkeyLen, hkeyCap]
  by_cases hs : srcFits i s
  · by_cases hk : keyFits i s
    · rw [evaluate_of_fits hs hk, evaluate_of_fits (hsrcFits.mp hs) (hkeyFits.mp hk),
        sourceBytes_congr hsrcLen hsrc, keyBytes_congr hkeyLen hkey]
    · rw [evaluate_of_not_keyFits hk, evaluate_of_not_keyFits (mt hkeyFits.mpr hk)]
  · rw [evaluate_of_not_srcFits hs, evaluate_of_not_srcFits (mt hsrcFits.mpr hs)]

/-- The completion step is the completion of one evaluation, the same for all states with this word pending and these operands,
legal word or not, 46_host_access.md R307. -/
theorem State.exists_completePending_eq (s : State) :
    ∃ x, ∀ s' : State, s'.cmd = s.cmd → SameOperands s s' → s'.completePending = s'.complete x := by
  by_cases hlegal : ∃ i, decode s.cmd = .ok i
  · obtain ⟨i, hd⟩ := hlegal
    refine ⟨evaluate i s, fun s' hcmd hsame => ?_⟩
    rw [State.completePending_of_decode (hcmd ▸ hd), evaluate_congr hsame]
  · refine ⟨.error (.raise .illegalCmd), fun s' hcmd _ => ?_⟩
    exact State.completePending_of_illegal (hcmd ▸ not_exists.mp hlegal)

/-! ### Two completions of one evaluation -/

theorem bytesOf_le_bytesOf (ty : OperandType) {m n : Nat} (h : m ≤ n) : bytesOf ty m ≤ bytesOf ty n := by
  cases ty with
  | bytes => exact h
  | text => exact Nat.mul_le_mul_left 2 h

/-- The bytes that DST_LEN counts after a stored result are bytes of that result, also where the count wraps around. -/
theorem State.succeed_read {s : State} {r : Result} {a : Nat}
    (ha : a < bytesOf r.type (s.succeed r).dstLen.toNat) : (s.succeed r).dst.read a = r.image[a]? := by
  have hle : (BitVec.ofNat 32 r.count).toNat ≤ r.count := by
    rw [BitVec.toNat_ofNat]
    exact Nat.mod_le _ _
  refine (s.succeed_success r).stored a (ha.trans_le ?_)
  rw [Result.image_length]
  exact bytesOf_le_bytesOf r.type hle

/-- One evaluation completes with the same report and the same result bytes in two states with the same DST capacity. -/
theorem State.complete_agrees {s s' t : State} {x : Except Halt Result} {ty : OperandType}
    (hcap : s.cfg.dstCap = s'.cfg.dstCap) (htype : ∀ r, x = .ok r → r.type = ty) (h : s.complete x = .next t) :
    ∃ t', s'.complete x = .next t' ∧ t'.status = t.status ∧ t'.dstLen = t.dstLen ∧
      ∀ a, a < bytesOf ty t.dstLen.toNat → t'.dst.read a = t.dst.read a := by
  rcases State.complete_next s t x h with ⟨r, rfl, hfit, rfl⟩ | ⟨r, rfl, hfit, rfl⟩ | ⟨e, rfl, rfl⟩
  · rw [hcap] at hfit
    refine ⟨s'.succeed r, congrArg _ (if_pos hfit), rfl, rfl, fun a ha => ?_⟩
    rw [← htype r rfl] at ha
    exact (State.succeed_read (s := s') ha).trans (State.succeed_read (s := s) ha).symm
  · rw [hcap] at hfit
    refine ⟨s'.errorEntry .operandRange, congrArg _ (if_neg hfit), rfl, rfl, fun a ha => ?_⟩
    exact absurd (ha.trans_eq (bytesOf_zero ty)) (Nat.not_lt_zero a)
  · refine ⟨s'.errorEntry e, rfl, rfl, rfl, fun a ha => ?_⟩
    exact absurd (ha.trans_eq (bytesOf_zero ty)) (Nat.not_lt_zero a)

theorem State.complete_eq_refused_iff (s : State) (x : Except Halt Result) (q : Refusal) :
    s.complete x = .refused q ↔ ∃ sp a, x = .error (.unwritten sp a) ∧ q = .unwrittenOperandByte sp a := by
  constructor
  · exact s.complete_refused x q
  · rintro ⟨sp, a, rfl, rfl⟩
    exact s.complete_unwritten sp a

/-- Settles O33: both commands complete the same evaluation (`evaluate_congr`). -/
theorem commandsArePureFunctions : Obligations.CommandsArePureFunctions := by
  intro i s s' hsame
  rw [exec_eq_complete, exec_eq_complete, ← evaluate_congr hsame]
  obtain ⟨-, -, -, -, -, -, hcap⟩ := hsame
  exact ⟨fun q => by rw [State.complete_eq_refused_iff, State.complete_eq_refused_iff],
    fun t h => State.complete_agrees hcap (fun r hr => evaluate_type hr) h⟩

/-! ### A text and its encoding -/

/-- What a state in which UTF8ENC succeeds, and the state it leaves, hold: the text of an encoding `m`, and `m`. -/
theorem utf8enc_success {s u : State} (hlegal : s.cfg.legal) (h : exec .utf8enc s = .next u)
    (hstatus : u.status = 0x00000002) :
    ∃ m, srcFits .utf8enc s ∧ sourceIs .utf8enc s m ∧ u.holdsBytes .dst u.dstLen.toNat m := by
  rcases exec_next h with ⟨r, hr, -, hfit, rfl⟩ | rfl | rfl
  · obtain ⟨m, hm, rfl⟩ := exceptMap_eq_ok hr
    obtain ⟨hsrc, hm⟩ := State.inRange_eq_ok hm
    obtain ⟨-, -, hcap⟩ := hlegal
    have hlen : (s.succeed (.bytes m)).dstLen.toNat = m.length := State.succeed_dstLen_toNat hcap hfit
    exact ⟨m, hsrc, (State.fetch_eq_ok _ _ _ _ _).mp hm, hlen.symm, (s.succeed_success (.bytes m)).stored⟩
  · cases hstatus
  · cases hstatus

/-- Two commands that compute the same result end alike where the DST capacities agree. -/
theorem OperandsAre.exec_agrees {i j : Instr} {s s' : State} {m k : List Byte} (h : OperandsAre i s m k)
    (h' : OperandsAre j s' m k) (hresult : resultOf j m k = resultOf i m k) (hcap : s'.cfg.dstCap = s.cfg.dstCap) :
    ∃ v v', exec i s = .next v ∧ exec j s' = .next v' ∧ v'.status = v.status ∧ v'.dstLen = v.dstLen ∧
      ∀ a, a < bytesOf (resultOf i m k).type v.dstLen.toNat → v'.dst.read a = v.dst.read a := by
  rw [exec_eq_complete, exec_eq_complete, h.evaluate, h'.evaluate, hresult]
  obtain ⟨v', hv', hagree⟩ := State.complete_agrees (s := s) (s' := s') (x := .ok (resultOf i m k)) hcap.symm
    (by rintro r ⟨⟩; rfl) rfl
  exact ⟨_, v', rfl, hv', hagree⟩

/-- Settles O34: the text of `s` encodes to the bytes that `s'` holds (`utf8enc_success`), and both commands hash those. -/
theorem textHashEqualsEncodeThenHash : Obligations.TextHashEqualsEncodeThenHash := by
  intro s u s' text bytes hpair hlegal hexec hstatus hlen hcopy hsrc' hcap
  obtain ⟨m, hsrc, hm, hmlen, hm'⟩ := utf8enc_success hlegal hexec hstatus
  rw [← hlen] at hmlen hcopy hsrc'
  have hbytes : s'.holdsBytes .src s'.srcLen.toNat m :=
    ⟨hmlen, fun k hk => (hcopy k (hmlen ▸ hk)).trans (hm' k hk)⟩
  rcases hpair with ⟨rfl, rfl⟩ | ⟨rfl, rfl⟩
  · have htext : OperandsAre (.md5 .text) s m [] := .of_keyType_none rfl hsrc hm
    exact htext.exec_agrees (j := .md5 .bytes) (.of_keyType_none rfl hsrc' hbytes) rfl hcap
  · have htext : OperandsAre (.sha1 .text) s m [] := .of_keyType_none rfl hsrc hm
    exact htext.exec_agrees (j := .sha1 .bytes) (.of_keyType_none rfl hsrc' hbytes) rfl hcap

/-! ### The working state and the base addresses replaced -/

/-- The state with other parameters and another internal working state. -/
def State.recast (s : State) (cfg : Config) (wk : Work) : State := { s with cfg := cfg, work := wk }

/-- Two sets of parameters that differ in the base addresses only, 00_scope.md R10. -/
def SameCaps (c c' : Config) : Prop := ∀ space, c'.cap space = c.cap space

section
variable (s : State) (cfg : Config) (wk : Work)

@[simp] theorem State.recast_busy : (s.recast cfg wk).busy = s.busy := rfl

@[simp] theorem State.recast_reg (r : Reg) : (s.recast cfg wk).reg r = s.reg r := by
  cases r <;> rfl

@[simp] theorem State.recast_buf (space : Space) : (s.recast cfg wk).buf space = s.buf space := by
  cases space <;> rfl

@[simp] theorem State.recast_setBuf (space : Space) (m : Memory) :
    (s.recast cfg wk).setBuf space m = (s.setBuf space m).recast cfg wk := by
  cases space <;> rfl

theorem State.recast_readReg (r : Reg) : (s.recast cfg wk).readReg r = (s.readReg r).recast cfg wk := by
  simp only [State.readReg, State.recast_busy, State.recast_reg]
  split <;> rfl

theorem State.recast_writeReg (r : Reg) (v : Word) :
    (s.recast cfg wk).writeReg r v = (s.writeReg r v).recast cfg wk := by
  cases hbusy : s.busy with
  | true => rw [State.writeReg_of_busy hbusy, State.writeReg_of_busy (s := s.recast cfg wk) hbusy]
  | false => cases r <;> simp only [State.writeReg, State.recast_busy, hbusy] <;> rfl

theorem State.recast_readBuf (space : Space) (addr : Nat) :
    (s.recast cfg wk).readBuf space addr = (s.readBuf space addr).recast cfg wk := by
  simp only [State.readBuf, State.byteAt, State.recast_busy, State.recast_buf]
  split <;> rfl

theorem State.recast_writeBuf (space : Space) (addr : Nat) (v : Byte) :
    (s.recast cfg wk).writeBuf space addr v = (s.writeBuf space addr v).recast cfg wk := by
  simp only [State.writeBuf, State.recast_busy, State.recast_buf, State.recast_setBuf]
  split <;> rfl

end

section
variable {s t : State} {cfg : Config} (hcap : SameCaps s.cfg cfg) (wk : Work)

include hcap

theorem sameOperands_recast : SameOperands s (s.recast cfg wk) :=
  ⟨rfl, rfl, rfl, rfl, (hcap .src).symm, (hcap .key).symm, (hcap .dst).symm⟩

/-- A host access neither reads nor changes the working state, and of the parameters it reads the capacities. -/
theorem hostAccess_recast {a : HostAction} (h : hostAccess a s = .next t) :
    hostAccess a (s.recast cfg wk) = .next (t.recast cfg wk) := by
  cases a with
  | readReg r =>
    cases h
    exact congrArg _ (s.recast_readReg cfg wk r)
  | writeReg r v =>
    cases h
    exact congrArg _ (s.recast_writeReg cfg wk r v)
  | readBuf space addr =>
    obtain ⟨haddr, rfl⟩ := State.atAddress_next h
    rw [hostAccess_readBuf_of_lt (haddr.trans_eq (hcap space).symm), State.recast_readBuf]
  | writeBuf space addr v =>
    obtain ⟨haddr, rfl⟩ := State.atAddress_next h
    rw [hostAccess_writeBuf_of_lt (haddr.trans_eq (hcap space).symm), State.recast_writeBuf]

/-- A completion leaves the working state it would have left, whatever stood there before, 10_state.md R38. -/
theorem State.complete_recast {x : Except Halt Result} (h : s.complete x = .next t) :
    (s.recast cfg wk).complete x = .next (t.recast cfg t.work) := by
  have hdst : cfg.dstCap = s.cfg.dstCap := hcap .dst
  rcases State.complete_next s t x h with ⟨r, rfl, hfit, rfl⟩ | ⟨r, rfl, hfit, rfl⟩ | ⟨e, rfl, rfl⟩
  · exact congrArg _ (if_pos (hfit.trans_eq hdst.symm))
  · exact congrArg _ (if_neg (by rwa [← hdst] at hfit))
  · rfl

theorem State.completePending_recast (h : s.completePending = .next t) :
    (s.recast cfg wk).completePending = .next (t.recast cfg t.work) := by
  obtain ⟨x, hx⟩ := s.exists_completePending_eq
  rw [hx s rfl ⟨rfl, rfl, rfl, rfl, rfl, rfl, rfl⟩] at h
  rw [hx (s.recast cfg wk) rfl (sameOperands_recast hcap wk), State.complete_recast hcap wk h]

/-- An engine turn keeps the working state, while idle, or leaves one that does not depend on what stood there. -/
theorem State.engineTurn_recast (h : s.engineTurn = .next t) :
    ∃ wk', (s.recast cfg wk).engineTurn = .next (t.recast cfg wk') ∧ (wk = s.work → wk' = t.work) := by
  cases hbusy : s.busy with
  | true =>
    refine ⟨t.work, ?_, fun _ => rfl⟩
    rw [State.engineTurn_busy s hbusy] at h
    rw [State.engineTurn_busy (s.recast cfg wk) hbusy, State.completePending_recast hcap wk h]
  | false =>
    rw [State.engineTurn_idle s hbusy] at h
    cases h
    exact ⟨wk, State.engineTurn_idle (s.recast cfg wk) hbusy, id⟩

end

theorem hostAccess_work {s t : State} {a : HostAction} (h : hostAccess a s = .next t) : t.work = s.work := by
  have hsame : t.recast s.cfg s.work = t :=
    Host.Outcome.next.inj ((hostAccess_recast (cfg := s.cfg) (fun _ => rfl) s.work h).symm.trans h)
  exact (congrArg State.work hsame).symm

/-- A step from other base addresses and another working state goes on to the same state, but for these two. -/
theorem step_recast {s t : State} {cfg : Config} (hcap : SameCaps s.cfg cfg) (wk : Work) (h : step s = .next t) :
    ∃ wk', step (s.recast cfg wk) = .next (t.recast cfg wk') ∧ (wk = s.work → wk' = t.work) := by
  cases hturns : s.turns with
  | nil =>
    rw [step_of_nil s hturns] at h
    rw [step_of_nil (s.recast cfg wk) hturns]
    exact State.engineTurn_recast hcap wk h
  | cons turn rest =>
    cases turn with
    | host a =>
      rw [step_of_host s a rest hturns] at h
      rw [step_of_host (s.recast cfg wk) a rest hturns]
      have hwork : t.work = s.work := hostAccess_work (s := { s with turns := rest }) h
      exact ⟨wk, hostAccess_recast (s := { s with turns := rest }) hcap wk h, fun hwk => hwk.trans hwork.symm⟩
    | engine =>
      rw [step_of_engine s rest hturns] at h
      rw [step_of_engine (s.recast cfg wk) rest hturns]
      exact State.engineTurn_recast (s := { s with turns := rest }) hcap wk h
    | reset =>
      rw [step_of_reset s rest hturns] at h
      rw [step_of_reset (s.recast cfg wk) rest hturns]
      cases h
      exact ⟨_, rfl, fun _ => rfl⟩

/-- No step changes the parameters, 00_scope.md R10. -/
theorem step_cfg {s t : State} (h : step s = .next t) : t.cfg = s.cfg := by
  obtain ⟨wk, hstep, -⟩ := step_recast (cfg := s.cfg) (fun _ => rfl) s.work h
  have hsame : t = t.recast s.cfg wk := Host.Outcome.next.inj (h.symm.trans hstep)
  exact (congrArg State.cfg hsame).trans rfl

theorem State.complete_setWork (s : State) (wk : Work) (x : Except Halt Result) :
    State.complete { s with work := wk } x = s.complete x := by
  match x with
  | .ok r => rfl
  | .error (.raise e) => rfl
  | .error (.unwritten sp a) => rfl

/-- Settles O35: a command completes the same evaluation and overwrites the working state; any other step is covered by
`step_recast`. -/
theorem workingStateIsUnobservable : Obligations.WorkingStateIsUnobservable := by
  refine fun s wk => ⟨fun i => ?_, fun t h => ?_⟩
  · have hsame : SameOperands { s with work := wk } s := ⟨rfl, rfl, rfl, rfl, rfl, rfl, rfl⟩
    rw [exec_eq_complete, exec_eq_complete, State.complete_setWork, evaluate_congr hsame]
  · obtain ⟨wk', hstep, -⟩ := step_recast (cfg := s.cfg) (fun _ => rfl) wk h
    refine ⟨_, hstep, ?_⟩
    rw [← step_cfg h]
    rfl

/-- Settles O36: `step_recast` with other base addresses and the same working state. -/
theorem baseAddressesDoNotMatter : Obligations.BaseAddressesDoNotMatter := by
  intro s t rb sb kb db h
  have hcap : SameCaps s.cfg { s.cfg with regBase := rb, srcBase := sb, keyBase := kb, dstBase := db } := by
    intro space
    cases space <;> rfl
  obtain ⟨wk', hstep, hwork⟩ := step_recast hcap s.work h
  rw [hwork rfl] at hstep
  rw [step_cfg h]
  exact hstep

end Sys2Proof.Machine
end

section
/-! SUPPORT. How a step can stop (spec/46_host_access.md R300, spec/10_state.md R40), and a host that moves while a command is
pending (spec/10_state.md R28, spec/20_memory.md R65). -/

namespace Sys2Proof.Machine

/-! ### Stops -/

/-- A host access stops only at a buffer address that does not exist, 46_host_access.md R300. -/
theorem hostAccess_fault {s : State} {a : HostAction} {f : Fault} (h : hostAccess a s = .fault f) :
    ∃ space addr, f = .addressOutsideBuffer space addr ∧ s.cfg.cap space ≤ addr ∧
      (a = .readBuf space addr ∨ ∃ v, a = .writeBuf space addr v) := by
  have hstop {space : Space} {addr : Nat} {t : State} (h : s.atAddress space addr t = .fault f) :
      f = .addressOutsideBuffer space addr ∧ s.cfg.cap space ≤ addr := by
    rw [State.atAddress] at h
    split at h
    · cases h
    · cases h
      exact ⟨rfl, by omega⟩
  cases a with
  | readReg r => cases h
  | writeReg r v => cases h
  | readBuf space addr =>
    obtain ⟨hf, haddr⟩ := hstop h
    exact ⟨space, addr, hf, haddr, .inl rfl⟩
  | writeBuf space addr v =>
    obtain ⟨hf, haddr⟩ := hstop h
    exact ⟨space, addr, hf, haddr, .inr ⟨v, rfl⟩⟩

theorem hostAccess_ne_refused (s : State) (a : HostAction) (q : Refusal) : hostAccess a s ≠ .refused q := by
  have hgo (space : Space) (addr : Nat) (t : State) : s.atAddress space addr t ≠ .refused q := by
    rw [State.atAddress]
    split <;> simp
  cases a with
  | readReg r => simp [hostAccess]
  | writeReg r v => simp [hostAccess]
  | readBuf space addr => exact hgo space addr _
  | writeBuf space addr v => exact hgo space addr _

theorem State.engineTurn_ne_fault (s : State) (f : Fault) : s.engineTurn ≠ .fault f := by
  cases hbusy : s.busy with
  | true =>
    rw [State.engineTurn_busy s hbusy, State.completePending_eq]
    exact s.complete_fault _ f
  | false =>
    rw [State.engineTurn_idle s hbusy]
    simp

/-- The engine is refused only by a legal command that meets a byte of its operands without a value, 10_state.md R40. -/
theorem State.engineTurn_refused {s : State} {q : Refusal} (h : s.engineTurn = .refused q) :
    s.busy = true ∧ ∃ i sp x, decode s.cmd = .ok i ∧ q = .unwrittenOperandByte sp x ∧ (s.buf sp).read x = none ∧
      x < s.cfg.cap sp ∧ ¬operandsWritten i s := by
  cases hbusy : s.busy with
  | false => simp [State.engineTurn_idle s hbusy] at h
  | true =>
    rw [State.engineTurn_busy s hbusy] at h
    by_cases hlegal : ∃ i, decode s.cmd = .ok i
    · obtain ⟨i, hd⟩ := hlegal
      rw [State.completePending_of_decode hd] at h
      obtain ⟨sp, x, hx, rfl⟩ := State.complete_refused s _ q h
      obtain ⟨hnone, hcap, hnot⟩ := evaluate_unwritten hx
      exact ⟨rfl, i, sp, x, hd, rfl, hnone, hcap, hnot⟩
    · rw [State.completePending_of_illegal (not_exists.mp hlegal)] at h
      cases h

/-- A step faults only in a host's buffer access, 46_host_access.md R300. -/
theorem step_fault {s : State} {f : Fault} (h : step s = .fault f) :
    ∃ space addr a rest, s.turns = .host a :: rest ∧ f = .addressOutsideBuffer space addr ∧ s.cfg.cap space ≤ addr ∧
      (a = .readBuf space addr ∨ ∃ v, a = .writeBuf space addr v) := by
  cases hturns : s.turns with
  | nil => exact absurd ((step_of_nil s hturns).symm.trans h) (State.engineTurn_ne_fault _ f)
  | cons turn rest =>
    cases turn with
    | host a =>
      obtain ⟨space, addr, hf⟩ := hostAccess_fault ((step_of_host s a rest hturns).symm.trans h)
      exact ⟨space, addr, a, rest, rfl, hf⟩
    | engine => exact absurd ((step_of_engine s rest hturns).symm.trans h) (State.engineTurn_ne_fault _ f)
    | reset => cases (step_of_reset s rest hturns).symm.trans h

/-- A step is refused only in the engine's turn, 10_state.md R40. -/
theorem step_refused {s : State} {q : Refusal} (h : step s = .refused q) :
    s.busy = true ∧ ∃ i sp x, decode s.cmd = .ok i ∧ q = .unwrittenOperandByte sp x ∧ (s.buf sp).read x = none ∧
      x < s.cfg.cap sp ∧ ¬operandsWritten i s := by
  cases hturns : s.turns with
  | nil => exact State.engineTurn_refused ((step_of_nil s hturns).symm.trans h)
  | cons turn rest =>
    cases turn with
    | host a => exact absurd ((step_of_host s a rest hturns).symm.trans h) (hostAccess_ne_refused _ a q)
    | engine => exact State.engineTurn_refused (s := { s with turns := rest }) ((step_of_engine s rest hturns).symm.trans h)
    | reset => cases (step_of_reset s rest hturns).symm.trans h

/-- Settles O9: the two stops, read off `step_fault` and `step_refused`. -/
theorem stepStopsOnlyByTheTwoNames : Obligations.StepStopsOnlyByTheTwoNames := by
  refine fun s => ⟨fun f h => ?_, fun q h => ?_⟩
  · obtain ⟨space, addr, a, rest, hturns, hf, haddr, rfl | ⟨v, rfl⟩⟩ := step_fault h
    · exact ⟨space, addr, rest, hf, haddr, .inl hturns⟩
    · exact ⟨space, addr, rest, hf, haddr, .inr ⟨v, hturns⟩⟩
  · obtain ⟨hbusy, i, sp, x, -, hq, hnone, hcap, -⟩ := step_refused h
    exact ⟨sp, x, hq, hnone, hcap, hbusy⟩

theorem HostAction.not_wellFormed {c : Config} {a : HostAction} {space : Space} {addr : Nat} (h : c.cap space ≤ addr)
    (ha : a = .readBuf space addr ∨ ∃ v, a = .writeBuf space addr v) : a.wellFormed c = false := by
  rcases ha with rfl | ⟨v, rfl⟩ <;> exact decide_eq_false h.not_gt

/-- Settles O10: a fault contradicts the first turn's address, a refusal the operands' being written. -/
theorem correctHostNeverStops : Obligations.CorrectHostNeverStops := by
  intro s hturns hwritten
  cases h : step s with
  | next t => exact ⟨t, rfl⟩
  | fault f =>
    obtain ⟨space, addr, a, rest, hhead, -, haddr, ha⟩ := step_fault h
    have hwf : a.wellFormed s.cfg = true := hturns (.host a) (by simp [hhead])
    simp [HostAction.not_wellFormed haddr ha] at hwf
  | refused q =>
    obtain ⟨hbusy, i, sp, x, hd, -, -, -, hnot⟩ := step_refused h
    exact absurd (hwritten hbusy i hd) hnot

/-! ### The host while a command is pending -/

/-- The state with other turns, replies and draws, which are the model's own fields (log 1, 8, 10). -/
def State.withModelFields (s : State) (turns : List Turn) (replies : List Reply) (draws : Nat) : State :=
  { s with turns := turns, replies := replies, draws := draws }

/-- An access at an existing address changes nothing but the replies and the draws while a command is pending,
46_host_access.md R308. -/
theorem hostAccess_of_busy {s : State} {a : HostAction} (hbusy : s.busy = true) (ha : a.wellFormed s.cfg = true) :
    ∃ replies draws, hostAccess a s = .next (s.withModelFields s.turns replies draws) := by
  cases a with
  | readReg r =>
    by_cases hr : r = .dstLen
    · subst hr
      exact ⟨_, _, congrArg _ (State.readReg_dstLen_of_busy hbusy)⟩
    · exact ⟨_, s.draws, hostAccess_readReg_eq_reply (.inr hr)⟩
  | writeReg r v => exact ⟨s.replies, s.draws, congrArg _ (State.writeReg_of_busy hbusy r v)⟩
  | readBuf space addr =>
    rw [hostAccess_readBuf_of_lt (of_decide_eq_true ha), State.readBuf_of_busy hbusy]
    exact ⟨_, _, rfl⟩
  | writeBuf space addr v =>
    rw [hostAccess_writeBuf_of_lt (of_decide_eq_true ha), State.writeBuf_of_busy hbusy]
    exact ⟨s.replies, s.draws, rfl⟩

/-- A run through host accesses while a command is pending, 46_host_access.md R308. -/
theorem run_hostAccesses_of_busy (k : Nat) (rest : List Turn) {hs : List HostAction} {s : State} (hbusy : s.busy = true)
    (hwf : ∀ a ∈ hs, a.wellFormed s.cfg = true) (hturns : s.turns = hs.map Turn.host ++ rest) :
    ∃ replies draws, Sys2Proof.core.run (hs.length + k) s =
      Sys2Proof.core.run k (s.withModelFields rest replies draws) := by
  induction hs generalizing s with
  | nil =>
    obtain rfl : s.turns = rest := hturns
    exact ⟨s.replies, s.draws, by rw [List.length_nil, Nat.zero_add]; rfl⟩
  | cons a hs ih =>
    obtain ⟨ha, hhs⟩ := List.forall_mem_cons.mp hwf
    obtain ⟨replies, draws, haccess⟩ := hostAccess_of_busy (s := { s with turns := hs.map Turn.host ++ rest }) hbusy ha
    obtain ⟨replies', draws', hrun⟩ :=
      ih (s := s.withModelFields (hs.map Turn.host ++ rest) replies draws) hbusy hhs rfl
    refine ⟨replies', draws', ?_⟩
    rw [List.length_cons, Nat.add_right_comm, core_run_of_next _ _ _ ((step_of_host s a _ hturns).trans haccess)]
    exact hrun

/-- The completion does not depend on the model's own fields but for carrying them along. -/
theorem State.completePending_withModelFields {s t : State} (h : s.completePending = .next t) (turns : List Turn)
    (replies : List Reply) (draws : Nat) :
    ∃ u, (s.withModelFields turns replies draws).completePending = .next u ∧ u.visible = t.visible ∧ u.turns = turns := by
  obtain ⟨x, hx⟩ := s.exists_completePending_eq
  rw [hx s rfl ⟨rfl, rfl, rfl, rfl, rfl, rfl, rfl⟩] at h
  rw [hx (s.withModelFields turns replies draws) rfl ⟨rfl, rfl, rfl, rfl, rfl, rfl, rfl⟩]
  rcases State.complete_next s t x h with ⟨r, rfl, hfit, rfl⟩ | ⟨r, rfl, hfit, rfl⟩ | ⟨e, rfl, rfl⟩
  · exact ⟨_, congrArg _ (if_pos hfit), rfl, rfl⟩
  · exact ⟨_, congrArg _ (if_neg hfit), rfl, rfl⟩
  · exact ⟨_, rfl, rfl, rfl⟩

/-- Settles O17: the host's accesses change only the model's own fields, which the completion does not read. -/
theorem hostCannotDisturbAPendingCommand : Obligations.HostCannotDisturbAPendingCommand := by
  intro hs s t rest hbusy hwf hturns hpending
  obtain ⟨replies, draws, hrun⟩ := run_hostAccesses_of_busy 1 (.engine :: rest) hbusy hwf hturns
  obtain ⟨u, hu, hvisible, huturns⟩ := State.completePending_withModelFields hpending rest replies draws
  refine ⟨u, ?_, hvisible, huturns⟩
  have hstep : step (s.withModelFields (.engine :: rest) replies draws) = .next u :=
    (step_of_engine _ rest rfl).trans ((State.engineTurn_busy (s.withModelFields rest replies draws) hbusy).trans hu)
  rw [hrun, core_run_of_next 0 _ _ hstep]
  rfl

end Sys2Proof.Machine
end

section
/-! SUPPORT. The UTF-8 encoder by the first code point of the text, the length of what it answers, and a decoder that undoes it
(spec/40_utf8_encoder.md R101 to R108). -/

namespace Sys2Proof.Machine

/-! ### The bytes of one code point -/

theorem enc2_eq {cp : Nat} (h : cp < 0x800) :
    enc2 cp = [BitVec.ofNat 8 (0xC0 + cp / 64), BitVec.ofNat 8 (0x80 + cp % 64)] := by
  have hfirst : field cp 10 6 = cp / 64 := by
    simp only [field]
    omega
  rw [enc2, hfirst, field_low]
  rfl

theorem enc3_eq {cp : Nat} (h : cp < 0x10000) :
    enc3 cp = [BitVec.ofNat 8 (0xE0 + cp / 4096), BitVec.ofNat 8 (0x80 + cp / 64 % 64),
      BitVec.ofNat 8 (0x80 + cp % 64)] := by
  have hfirst : field cp 15 12 = cp / 4096 := by
    simp only [field]
    omega
  rw [enc3, hfirst, field_low]
  rfl

theorem enc4_eq {cp : Nat} (h : cp < 0x200000) :
    enc4 cp = [BitVec.ofNat 8 (0xF0 + cp / 262144), BitVec.ofNat 8 (0x80 + cp / 4096 % 64),
      BitVec.ofNat 8 (0x80 + cp / 64 % 64), BitVec.ofNat 8 (0x80 + cp % 64)] := by
  have hfirst : field cp 20 18 = cp / 262144 := by
    simp only [field]
    omega
  rw [enc4, hfirst, field_low]
  rfl

/-! ### One unit -/

theorem encUnit_one {u : CodeUnit} (h : u.toNat < 0x80) : encUnit u = .ok (enc1 u.toNat) := if_pos h

theorem encUnit_two {u : CodeUnit} (hlo : 0x80 ≤ u.toNat) (hhi : u.toNat < 0x800) :
    encUnit u = .ok (enc2 u.toNat) := by
  rw [encUnit, if_neg (by omega), if_pos hhi]

theorem encUnit_three {u : CodeUnit} (h : (0x800 ≤ u.toNat ∧ u.toNat < 0xD800) ∨ 0xE000 ≤ u.toNat) :
    encUnit u = .ok (enc3 u.toNat) := by
  rw [encUnit, if_neg (by omega), if_neg (by omega), if_pos (by omega)]

theorem encUnit_surrogate {u : CodeUnit} (hlo : 0xD800 ≤ u.toNat) (hhi : u.toNat ≤ 0xDFFF) :
    encUnit u = .error .encoding := by
  rw [encUnit, if_neg (by omega), if_neg (by omega), if_neg (by omega)]

/-- A unit that encodes alone is of one of the three ranges of R101 to R103. -/
theorem encUnit_eq_ok {u : CodeUnit} {b : List Byte} (h : encUnit u = .ok b) :
    (u.toNat < 0x80 ∧ b = enc1 u.toNat) ∨ (0x80 ≤ u.toNat ∧ u.toNat < 0x800 ∧ b = enc2 u.toNat) ∨
      (0x800 ≤ u.toNat ∧ b = enc3 u.toNat) := by
  rcases Nat.lt_or_ge u.toNat 0x80 with h1 | h1
  · rw [encUnit_one h1] at h
    exact .inl ⟨h1, (Except.ok.inj h).symm⟩
  rcases Nat.lt_or_ge u.toNat 0x800 with h2 | h2
  · rw [encUnit_two h1 h2] at h
    exact .inr (.inl ⟨h1, h2, (Except.ok.inj h).symm⟩)
  by_cases h3 : u.toNat < 0xD800 ∨ 0xE000 ≤ u.toNat
  · rw [encUnit_three (by omega)] at h
    exact .inr (.inr ⟨h2, (Except.ok.inj h).symm⟩)
  · rw [encUnit_surrogate (by omega) (by omega)] at h
    cases h

theorem isHigh_iff (u : CodeUnit) : isHigh u = true ↔ 0xD800 ≤ u.toNat ∧ u.toNat ≤ 0xDBFF := by simp [isHigh]

theorem isLow_iff (u : CodeUnit) : isLow u = true ↔ 0xDC00 ≤ u.toNat ∧ u.toNat ≤ 0xDFFF := by simp [isLow]

theorem pairPoint_lt {hi lo : CodeUnit} (h : isHigh hi && isLow lo) : pairPoint hi lo < 0x110000 := by
  rw [Bool.and_eq_true, isHigh_iff, isLow_iff] at h
  unfold pairPoint
  omega

/-! ### The first code point of a text -/

/-- Only a high surrogate opens a pair, 20_memory.md R52. -/
theorem not_splitsPair_of_not_high {u : CodeUnit} (hu : u.toNat < 0xD800 ∨ 0xDBFF < u.toNat) (t : List CodeUnit) :
    ¬SplitsPair [u] t := by
  rw [splitsPair_iff]
  rintro ⟨⟨x, hx, hlo, hhi⟩, -⟩
  obtain rfl : u = x := by simpa using hx
  omega

theorem utf8Encode_cons_ok {u : CodeUnit} {t : List CodeUnit} {x b : List Byte}
    (hu : u.toNat < 0xD800 ∨ 0xDBFF < u.toNat) (hx : encUnit u = .ok x) (ht : utf8Encode t = .ok b) :
    utf8Encode (u :: t) = .ok (x ++ b) := by
  rw [utf8Encode_cons (not_splitsPair_of_not_high hu t), hx, ht, prepend_ok_ok]

/-- A surrogate that opens no pair is an error, whatever follows, R105. -/
theorem utf8Encode_unpaired {u : CodeUnit} {t : List CodeUnit} (hlo : 0xD800 ≤ u.toNat) (hhi : u.toNat ≤ 0xDFFF)
    (h : ¬SplitsPair [u] t) : utf8Encode (u :: t) = .error .encoding := by
  rw [utf8Encode_cons h, encUnit_surrogate hlo hhi]
  rfl

/-- An error of what follows is an error of the whole, R105. -/
theorem prepend_encoding {u : CodeUnit} : prepend (encUnit u) (.error .encoding) = .error .encoding := by
  cases h : encUnit u with
  | ok x => rfl
  | error e =>
    rw [encUnit_error u e h]
    rfl

/-- Settles O39: a first unit that is no high surrogate is encoded alone (`utf8Encode_cons`), a pair as its code point
(`utf8Encode_pair`), and each of the three unpaired surrogates opens no pair. -/
theorem utf8EncodesByCodePoint : Obligations.Utf8EncodesByCodePoint := by
  have hpair {hi lo : CodeUnit} (h1 : 0xD800 ≤ hi.toNat) (h2 : hi.toNat ≤ 0xDBFF) (h3 : 0xDC00 ≤ lo.toNat)
      (h4 : lo.toNat ≤ 0xDFFF) : isHigh hi && isLow lo := by
    rw [Bool.and_eq_true, isHigh_iff, isLow_iff]
    exact ⟨⟨h1, h2⟩, h3, h4⟩
  refine ⟨rfl, fun u t b ht => ⟨fun h => ?_, fun hlo hhi => ?_, fun h => ?_⟩, ?_, ?_, ?_, ?_, ?_, ?_⟩
  · exact utf8Encode_cons_ok (by omega) (encUnit_one h) ht
  · rw [utf8Encode_cons_ok (by omega) (encUnit_two hlo hhi) ht, enc2_eq hhi]
    rfl
  · rw [utf8Encode_cons_ok (by omega) (encUnit_three h) ht, enc3_eq u.isLt]
    rfl
  · intro hi lo t b cp ht h1 h2 h3 h4 hcp
    have hpoint : pairPoint hi lo = cp := hcp.symm
    have hlt := pairPoint_lt (hpair h1 h2 h3 h4)
    rw [utf8Encode_pair (hpair h1 h2 h3 h4), ht, prepend_ok_ok, enc4_eq (by omega), hpoint]
    rfl
  · intro u t ht hu
    rw [utf8Encode_cons (not_splitsPair_of_not_high (by omega) t), ht, prepend_encoding]
  · intro hi lo t ht h1 h2 h3 h4
    rw [utf8Encode_pair (hpair h1 h2 h3 h4), ht]
    rfl
  · exact fun u t hlo hhi => utf8Encode_unpaired (by omega) hhi (not_splitsPair_of_not_high (by omega) t)
  · refine fun hi hlo hhi => utf8Encode_unpaired hlo (by omega) ?_
    simp [splitsPair_iff]
  · refine fun hi v t hlo hhi hv => utf8Encode_unpaired hlo (by omega) ?_
    rw [splitsPair_singleton_cons, Bool.and_eq_true, isLow_iff]
    omega

/-! ### The length of the encoding -/

theorem prepend_eq_ok {x y : Except CmdError (List Byte)} {b : List Byte} (h : prepend x y = .ok b) :
    ∃ p q, x = .ok p ∧ y = .ok q ∧ b = p ++ q := by
  obtain ⟨p, hp, h⟩ := exceptBind_eq_ok h
  obtain ⟨q, hq, rfl⟩ := exceptMap_eq_ok h
  exact ⟨p, q, hp, hq, rfl⟩

theorem encUnit_length_le {u : CodeUnit} {b : List Byte} (h : encUnit u = .ok b) : b.length ≤ 3 := by
  rcases encUnit_eq_ok h with ⟨-, rfl⟩ | ⟨-, -, rfl⟩ | ⟨-, rfl⟩ <;> simp [enc1, enc2, enc3]

/-- At most three bytes a unit, and four for the two units of a pair, R108. -/
theorem utf8Encode_length_le {t : List CodeUnit} {b : List Byte} (h : utf8Encode t = .ok b) :
    b.length ≤ 3 * t.length := by
  induction t using utf8Encode.induct generalizing b with
  | case1 =>
    cases h
    exact Nat.zero_le _
  | case2 u => exact encUnit_length_le h
  | case3 u v rest hp ih =>
    rw [utf8Encode_pair hp] at h
    obtain ⟨p, q, hp, hq, rfl⟩ := prepend_eq_ok h
    cases hp
    have := ih hq
    simp only [List.length_append, List.length_cons, enc4, List.length_nil]
    omega
  | case4 u v rest hp ih =>
    rw [utf8Encode, if_neg hp] at h
    obtain ⟨p, q, hp, hq, rfl⟩ := prepend_eq_ok h
    have := ih hq
    have := encUnit_length_le hp
    simp only [List.length_append, List.length_cons] at *
    omega

/-- Settles O41: three bytes a unit, and 3 * (2^32 - 1) is below 2^34. -/
theorem utf8LengthBound : Obligations.Utf8LengthBound := by
  intro t b h
  have hlen := utf8Encode_length_le h
  exact ⟨hlen, fun ht => by omega⟩

/-! ### A decoder -/

/-- The surrogate pair of a code point, the inverse of `pairPoint`, R104. -/
def pairUnits (cp : Nat) : List CodeUnit :=
  [BitVec.ofNat 16 (0xD800 + (cp - 0x10000) / 0x400), BitVec.ofNat 16 (0xDC00 + (cp - 0x10000) % 0x400)]

/-- The text of a byte sequence that the encoder answered, by the range of the first byte. The spec has no decoder; this one
only shows that the encoder can be undone. -/
def utf8Decode : List Byte → List CodeUnit
  | [] => []
  | x :: rest =>
    if x.toNat < 0x80 then BitVec.ofNat 16 x.toNat :: utf8Decode rest
    else match rest with
      | [] => []
      | y :: rest =>
        if x.toNat < 0xE0 then BitVec.ofNat 16 (64 * (x.toNat % 32) + y.toNat % 64) :: utf8Decode rest
        else match rest with
          | [] => []
          | z :: rest =>
            if x.toNat < 0xF0 then
              BitVec.ofNat 16 (4096 * (x.toNat % 16) + 64 * (y.toNat % 64) + z.toNat % 64) :: utf8Decode rest
            else match rest with
              | [] => []
              | w :: rest =>
                pairUnits (262144 * (x.toNat % 8) + 4096 * (y.toNat % 64) + 64 * (z.toNat % 64) + w.toNat % 64) ++
                  utf8Decode rest

theorem utf8Decode_one {x : Byte} (h : x.toNat < 0x80) (b : List Byte) :
    utf8Decode (x :: b) = BitVec.ofNat 16 x.toNat :: utf8Decode b := by
  rw [utf8Decode.eq_def]
  exact if_pos h

theorem utf8Decode_two {x : Byte} (hlo : 0x80 ≤ x.toNat) (hhi : x.toNat < 0xE0) (y : Byte) (b : List Byte) :
    utf8Decode (x :: y :: b) = BitVec.ofNat 16 (64 * (x.toNat % 32) + y.toNat % 64) :: utf8Decode b := by
  rw [utf8Decode.eq_def]
  exact (if_neg (by omega)).trans (if_pos hhi)

theorem utf8Decode_three {x : Byte} (hlo : 0xE0 ≤ x.toNat) (hhi : x.toNat < 0xF0) (y z : Byte) (b : List Byte) :
    utf8Decode (x :: y :: z :: b) =
      BitVec.ofNat 16 (4096 * (x.toNat % 16) + 64 * (y.toNat % 64) + z.toNat % 64) :: utf8Decode b := by
  rw [utf8Decode.eq_def]
  exact (if_neg (by omega)).trans ((if_neg (by omega)).trans (if_pos hhi))

theorem utf8Decode_four {x : Byte} (hlo : 0xF0 ≤ x.toNat) (y z w : Byte) (b : List Byte) :
    utf8Decode (x :: y :: z :: w :: b) =
      pairUnits (262144 * (x.toNat % 8) + 4096 * (y.toNat % 64) + 64 * (z.toNat % 64) + w.toNat % 64) ++ utf8Decode b := by
  rw [utf8Decode.eq_def]
  exact (if_neg (by omega)).trans ((if_neg (by omega)).trans (if_neg (by omega)))

theorem toNat_byte {v : Nat} (h : v < 256) : (BitVec.ofNat 8 v).toNat = v := Nat.mod_eq_of_lt h

theorem utf8Decode_enc1 {cp : Nat} (h : cp < 0x80) (b : List Byte) :
    utf8Decode (enc1 cp ++ b) = BitVec.ofNat 16 cp :: utf8Decode b := by
  have hx := toNat_byte (v := cp) (by omega)
  exact (utf8Decode_one (by omega) b).trans (by rw [hx])

theorem utf8Decode_enc2 {cp : Nat} (hlo : 0x80 ≤ cp) (hhi : cp < 0x800) (b : List Byte) :
    utf8Decode (enc2 cp ++ b) = BitVec.ofNat 16 cp :: utf8Decode b := by
  have hx := toNat_byte (v := 0xC0 + cp / 64) (by omega)
  have hy := toNat_byte (v := 0x80 + cp % 64) (by omega)
  have hcp : 64 * ((0xC0 + cp / 64) % 32) + (0x80 + cp % 64) % 64 = cp := by omega
  rw [enc2_eq hhi]
  exact (utf8Decode_two (by omega) (by omega) _ b).trans (by rw [hx, hy, hcp])

theorem utf8Decode_enc3 {cp : Nat} (hlo : 0x800 ≤ cp) (hhi : cp < 0x10000) (b : List Byte) :
    utf8Decode (enc3 cp ++ b) = BitVec.ofNat 16 cp :: utf8Decode b := by
  have hx := toNat_byte (v := 0xE0 + cp / 4096) (by omega)
  have hy := toNat_byte (v := 0x80 + cp / 64 % 64) (by omega)
  have hz := toNat_byte (v := 0x80 + cp % 64) (by omega)
  have hcp : 4096 * ((0xE0 + cp / 4096) % 16) + 64 * ((0x80 + cp / 64 % 64) % 64) + (0x80 + cp % 64) % 64 = cp := by
    omega
  rw [enc3_eq hhi]
  exact (utf8Decode_three (by omega) (by omega) _ _ b).trans (by rw [hx, hy, hz, hcp])

theorem utf8Decode_enc4 {cp : Nat} (h : cp < 0x110000) (b : List Byte) :
    utf8Decode (enc4 cp ++ b) = pairUnits cp ++ utf8Decode b := by
  have hx := toNat_byte (v := 0xF0 + cp / 262144) (by omega)
  have hy := toNat_byte (v := 0x80 + cp / 4096 % 64) (by omega)
  have hz := toNat_byte (v := 0x80 + cp / 64 % 64) (by omega)
  have hw := toNat_byte (v := 0x80 + cp % 64) (by omega)
  have hcp : 262144 * ((0xF0 + cp / 262144) % 8) + 4096 * ((0x80 + cp / 4096 % 64) % 64) +
      64 * ((0x80 + cp / 64 % 64) % 64) + (0x80 + cp % 64) % 64 = cp := by
    omega
  rw [enc4_eq (by omega)]
  exact (utf8Decode_four (by omega) _ _ _ b).trans (by rw [hx, hy, hz, hw, hcp])

theorem pairUnits_pairPoint {hi lo : CodeUnit} (h : isHigh hi && isLow lo) : pairUnits (pairPoint hi lo) = [hi, lo] := by
  rw [Bool.and_eq_true, isHigh_iff, isLow_iff] at h
  obtain ⟨⟨h1, h2⟩, h3, h4⟩ := h
  have hhi : 0xD800 + (pairPoint hi lo - 0x10000) / 0x400 = hi.toNat := by
    unfold pairPoint
    omega
  have hlo : 0xDC00 + (pairPoint hi lo - 0x10000) % 0x400 = lo.toNat := by
    unfold pairPoint
    omega
  simp only [pairUnits, hhi, hlo, BitVec.ofNat_toNat, BitVec.setWidth_eq]

theorem utf8Decode_encUnit {u : CodeUnit} {x : List Byte} (h : encUnit u = .ok x) (b : List Byte) :
    utf8Decode (x ++ b) = u :: utf8Decode b := by
  have hu : BitVec.ofNat 16 u.toNat = u := by simp
  rcases encUnit_eq_ok h with ⟨h1, rfl⟩ | ⟨h1, h2, rfl⟩ | ⟨h1, rfl⟩
  · rw [utf8Decode_enc1 h1, hu]
  · rw [utf8Decode_enc2 h1 h2, hu]
  · rw [utf8Decode_enc3 h1 u.isLt, hu]

/-- The decoder undoes the encoder, code point by code point. -/
theorem utf8Decode_utf8Encode {t : List CodeUnit} {b : List Byte} (h : utf8Encode t = .ok b) : utf8Decode b = t := by
  induction t using utf8Encode.induct generalizing b with
  | case1 =>
    cases h
    rfl
  | case2 u =>
    have hnil := utf8Decode_encUnit h []
    rwa [List.append_nil] at hnil
  | case3 u v rest hp ih =>
    rw [utf8Encode_pair hp] at h
    obtain ⟨p, q, hpt, hq, rfl⟩ := prepend_eq_ok h
    cases hpt
    rw [utf8Decode_enc4 (pairPoint_lt hp), pairUnits_pairPoint hp, ih hq]
    rfl
  | case4 u v rest hp ih =>
    rw [utf8Encode, if_neg hp] at h
    obtain ⟨p, q, hpt, hq, rfl⟩ := prepend_eq_ok h
    rw [utf8Decode_encUnit hpt, ih hq]

/-- Settles O42: both texts are what the decoder makes of the bytes. -/
theorem utf8EncodeIsInjective : Obligations.Utf8EncodeIsInjective := fun _ _ _ hs ht =>
  (utf8Decode_utf8Encode hs).symm.trans (utf8Decode_utf8Encode ht)

end Sys2Proof.Machine
end

section
/-! SUPPORT. The padded message byte by byte (spec/41_md5.md R120, spec/42_sha1.md R150). -/

namespace Sys2Proof.Machine

theorem padZeros_lt (n : Nat) : padZeros n < 64 := Nat.mod_lt _ (by decide)

theorem pad_eq_append_cons (m : List Byte) (order : ByteOrder) :
    pad m order = m ++ 0x80 :: (List.replicate (padZeros m.length) 0 ++ lengthWord order (8 * m.length)) := by
  simp [pad, rep]

theorem pad_getElem?_message (m : List Byte) (order : ByteOrder) {k : Nat} (h : k < m.length) :
    (pad m order)[k]? = m[k]? := by
  rw [pad_eq_append_cons, List.getElem?_append_left h]

theorem pad_getElem?_length (m : List Byte) (order : ByteOrder) : (pad m order)[m.length]? = some 0x80 := by
  simp [pad_eq_append_cons]

theorem pad_getElem?_after (m : List Byte) (order : ByteOrder) (q : Nat) :
    (pad m order)[m.length + 1 + q]? =
      (List.replicate (padZeros m.length) 0 ++ lengthWord order (8 * m.length))[q]? := by
  rw [pad_eq_append_cons, List.getElem?_append_right (by omega), show m.length + 1 + q - m.length = q + 1 by omega,
    List.getElem?_cons_succ]

theorem pad_getElem?_zeros (m : List Byte) (order : ByteOrder) {q : Nat} (h : q < padZeros m.length) :
    (pad m order)[m.length + 1 + q]? = some 0 := by
  rw [pad_getElem?_after, List.getElem?_append_left (by simpa using h), List.getElem?_replicate, if_pos h]

theorem pad_getElem?_lengthWord (m : List Byte) (order : ByteOrder) (t : Nat) :
    (pad m order)[m.length + 1 + padZeros m.length + t]? = (lengthWord order (8 * m.length))[t]? := by
  rw [Nat.add_assoc, pad_getElem?_after, List.getElem?_append_right (by simp), List.length_replicate,
    Nat.add_sub_cancel_left]

theorem le64_getElem? (v : Nat) {t : Nat} (h : t < 8) : (le64 v)[t]? = some (BitVec.ofNat 8 (v / 2 ^ (8 * t))) := by
  rw [le64, List.getElem?_map, List.getElem?_range h, Option.map_some]

theorem be64_getElem? (v : Nat) {t : Nat} (h : t < 8) :
    (be64 v)[t]? = some (BitVec.ofNat 8 (v / 2 ^ (8 * (7 - t)))) := by
  rw [be64, List.getElem?_map, List.getElem?_range h, Option.map_some]

/-- Settles O43: `z` is `padZeros`, and the four parts of the padded message lie one after the other. -/
theorem paddingLayout : Obligations.PaddingLayout := by
  intro m order _
  have hz := padZeros_lt m.length
  have hblocks := add_padZeros_eq m.length
  refine ⟨padZeros m.length, by omega, by omega, pad_length m order, fun k hk => pad_getElem?_message m order hk,
    pad_getElem?_length m order, fun k hlo hhi => ?_, fun t ht => ?_⟩
  · obtain ⟨q, rfl⟩ := Nat.exists_eq_add_of_le hlo
    exact pad_getElem?_zeros m order (q := q) (by omega)
  · rw [pad_getElem?_lengthWord]
    cases order with
    | le => exact le64_getElem? _ ht
    | be => exact be64_getElem? _ ht

end Sys2Proof.Machine
end

section
/-! SUPPORT. A decoder that undoes the Base64 encoder (spec/45_base64_codec.md R205 to R208). -/

namespace Sys2Proof.Machine

/-- The position of a character in the alphabet of R205, 0 where it is none of it. -/
def b64Value (u : CodeUnit) : Nat := ((List.range 64).find? fun v => b64Char v == u).getD 0

/-- The bytes of a text that the encoder answered. The spec has no decoder (R210); this one only shows that the encoder can be
undone. -/
def fromBase64 : List CodeUnit → List Byte
  | c0 :: c1 :: c2 :: c3 :: rest =>
    let x := BitVec.ofNat 8 (4 * b64Value c0 + b64Value c1 / 16)
    let y := BitVec.ofNat 8 (16 * b64Value c1 + b64Value c2 / 4)
    let z := BitVec.ofNat 8 (64 * b64Value c2 + b64Value c3)
    (if c2 = b64Pad then [x] else if c3 = b64Pad then [x, y] else [x, y, z]) ++ fromBase64 rest
  | _ => []

/-- The characters of R205 are told apart by their positions, and none is the pad character. -/
theorem b64Char_spec {v : Nat} (h : v < 64) : b64Value (b64Char v) = v ∧ b64Char v ≠ b64Pad := by
  have hall : ∀ v < 64, b64Value (b64Char v) = v ∧ b64Char v ≠ b64Pad := by decide +kernel
  exact hall v h

theorem b64Value_b64Char {v : Nat} (h : v < 64) : b64Value (b64Char v) = v := (b64Char_spec h).1

theorem b64Char_ne_b64Pad {v : Nat} (h : v < 64) : b64Char v ≠ b64Pad := (b64Char_spec h).2

theorem fromBase64_full {c2 c3 : CodeUnit} (h2 : c2 ≠ b64Pad) (h3 : c3 ≠ b64Pad) (c0 c1 : CodeUnit)
    (rest : List CodeUnit) :
    fromBase64 (c0 :: c1 :: c2 :: c3 :: rest) =
      BitVec.ofNat 8 (4 * b64Value c0 + b64Value c1 / 16) :: BitVec.ofNat 8 (16 * b64Value c1 + b64Value c2 / 4) ::
        BitVec.ofNat 8 (64 * b64Value c2 + b64Value c3) :: fromBase64 rest := by
  simp [fromBase64, h2, h3]

theorem fromBase64_two {c2 : CodeUnit} (h2 : c2 ≠ b64Pad) (c0 c1 : CodeUnit) :
    fromBase64 [c0, c1, c2, b64Pad] =
      [BitVec.ofNat 8 (4 * b64Value c0 + b64Value c1 / 16), BitVec.ofNat 8 (16 * b64Value c1 + b64Value c2 / 4)] := by
  simp [fromBase64, h2]

theorem fromBase64_one (c0 c1 : CodeUnit) :
    fromBase64 [c0, c1, b64Pad, b64Pad] = [BitVec.ofNat 8 (4 * b64Value c0 + b64Value c1 / 16)] := by
  simp [fromBase64]

theorem ofNat_eq_byte {n : Nat} {x : Byte} (h : n % 256 = x.toNat) : BitVec.ofNat 8 n = x :=
  BitVec.eq_of_toNat_eq ((BitVec.toNat_ofNat n 8).trans h)

/-- The decoder undoes the encoder, group by group. -/
theorem fromBase64_toBase64 (b : List Byte) : fromBase64 (toBase64 b) = b := by
  induction b using toBase64.induct with
  | case1 => rfl
  | case2 x =>
    have hx := x.isLt
    rw [toBase64_one, fromBase64_one, b64Value_b64Char (by omega), b64Value_b64Char (by omega),
      ofNat_eq_byte (x := x) (by omega)]
  | case3 x y =>
    have hx := x.isLt
    have hy := y.isLt
    rw [toBase64_two, fromBase64_two (b64Char_ne_b64Pad (by omega)), b64Value_b64Char (by omega),
      b64Value_b64Char (by omega), b64Value_b64Char (by omega), ofNat_eq_byte (x := x) (by omega),
      ofNat_eq_byte (x := y) (by omega)]
  | case4 x y z rest ih =>
    have hx := x.isLt
    have hy := y.isLt
    have hz := z.isLt
    rw [toBase64_full, b64Group]
    simp only [List.cons_append, List.nil_append]
    rw [fromBase64_full (b64Char_ne_b64Pad (by omega)) (b64Char_ne_b64Pad (by omega)), b64Value_b64Char (by omega),
      b64Value_b64Char (by omega), b64Value_b64Char (by omega), b64Value_b64Char (by omega),
      ofNat_eq_byte (x := x) (by omega), ofNat_eq_byte (x := y) (by omega), ofNat_eq_byte (x := z) (by omega), ih]

/-- Settles O59: an encoder with a left inverse is injective. -/
theorem toBase64IsInjective : Obligations.ToBase64IsInjective := fun _ _ h =>
  Function.LeftInverse.injective fromBase64_toBase64 h

end Sys2Proof.Machine
end
